-- ==== Sys2Proof/Word.lean ====
section
/-! DEFINITION. The word types of the block: step words, bytes, logical commands and elapsed-tick
counts (spec/00_scope.md R12, spec/30_encoding.md R75, R85). -/

namespace Sys2Proof

/-- A step word (R75). -/
abbrev Word := BitVec 32

/-- A byte of a frame (R12). -/
abbrev Byte := BitVec 8

/-- A 16-bit logical command (R17, R53). -/
abbrev Command := BitVec 16

/-- An elapsed-tick count. The step word gives it 24 bits (R76); `TICK_BITS` of them are in use (R85). -/
abbrev Ticks := BitVec 24

end Sys2Proof
end

