-- ==== Sys2Proof/Config.lean ====
section
/-! DEFINITION. The configuration record of spec/00_scope.md R8, with its defaults. Which records are
legal (R9) needs the classifier's window bound and stands in Machine/Classifier.lean. -/

namespace Sys2Proof

/-- What TXREQ does to the receive fields (R8 `TX_RX_POLICY`, R172). -/
inductive TxRxPolicy where
  | reset
  | preserve
  deriving DecidableEq, Repr

/-- What the external timer's count does past its largest value (R8 `TIMER_OVERFLOW`): read by the line
model (R212) and by no rule of the block. -/
inductive TimerOverflow where
  | saturate
  | wrap
  deriving DecidableEq, Repr

/-- The configuration record (R8), fixed at construction and written by no step (R10). -/
structure Config where
  /-- `DEV_ADDR`, the configured device address. -/
  devAddr : Byte
  /-- `TICK_RATE_HZ`, ticks per second of the free-running timer. -/
  tickRateHz : Nat
  /-- `MARGIN_US`, the tolerance of every class. -/
  marginUs : Nat
  /-- `T_TRAIN_US`. -/
  trainUs : Nat
  /-- `T_SILENCE_US`. -/
  silenceUs : Nat
  /-- `T_SHORT_US`. -/
  shortUs : Nat
  /-- `T_LONG_US`. -/
  longUs : Nat
  /-- `TICK_BITS`, the width of an elapsed-tick count. -/
  tickBits : Nat
  /-- `RESET_COUNT_BITS`, the width of the diagnostic reset counter. -/
  resetCountBits : Nat
  /-- `MARK_LOWER_CHECK` (R104). -/
  markLowerCheck : Bool
  /-- `TX_RX_POLICY` (R172). -/
  txRxPolicy : TxRxPolicy
  /-- `CARRIER_HZ`, OPEN with no default (R8, R180): `none` says that it is not fixed. No rule reads it.
  DESIGN CHOICE, safe, entry 6. -/
  carrierHz : Option Nat
  /-- `CARRIER_DUTY`, OPEN with no default (R8, R180), as a ratio (on, period). No rule reads it.
  DESIGN CHOICE, safe, entry 6. -/
  carrierDuty : Option (Nat × Nat)
  /-- `TIMER_OVERFLOW`, of the environment (R8, R212, R244). -/
  timerOverflow : TimerOverflow
  deriving DecidableEq, Repr

/-- The default column of R8. -/
def Config.default : Config where
  devAddr := 0xAA
  tickRateHz := 1000000
  marginUs := 100
  trainUs := 1000
  silenceUs := 600
  shortUs := 600
  longUs := 1650
  tickBits := 16
  resetCountBits := 16
  markLowerCheck := false
  txRxPolicy := .reset
  carrierHz := none
  carrierDuty := none
  timerOverflow := .saturate

/-- `BROADCAST`, the one fixed constant of the block (R7, R86). -/
def broadcast : Byte := 0xFF

end Sys2Proof
end

