-- ==== Sys2Proof/Syntax.lean ====
section
/-! DEFINITION. The seven step words as terms: one constructor of `Instr` per row of
spec/opcode_table.json (spec/30_encoding.md R76 to R82). -/

namespace Sys2Proof

/-- An edge direction (R30, R74). Rising ends a mark, Falling ends a space (R33). -/
inductive Dir where
  | falling
  | rising
  deriving DecidableEq, Repr

/-- The seven observation views in the order of their numbers 0 to 6 (R42). View 7 is reserved (R82). -/
inductive View where
  | status
  | resetCount
  | mbElapsed
  | frameA
  | frameB
  | txFrameA
  | txFrameB
  deriving DecidableEq, Repr

/-- A step of the block. -/
inductive Instr where
  /-- EDGE: one edge of the IR line with its elapsed count (R76, R200). -/
  | edge (dir : Dir) (elapsed : Ticks)
  /-- POLL: one iteration of the foreground's poll (R77, R120). -/
  | poll
  /-- COMPLETE: the foreground's handling of a received frame (R78, R130). -/
  | complete
  /-- TXREQ: a request to transmit `cmd` with address `addr` (R79, R170). -/
  | txreq (addr : Byte) (cmd : Command)
  /-- TXSTEP: the next step of a transmission (R80, R174). -/
  | txstep
  /-- READ: read an observation view (R82). -/
  | read (view : View)
  /-- RESET: the reset input (R81, R270). -/
  | reset
  deriving DecidableEq, Repr

/-- Why a word is no step word (R84, R237): the reason of `Refused(reason)` (R16). -/
inductive WordRefusal where
  /-- The opcode is 0x0 or 0x7 to 0xE. -/
  | illegalOpcode
  /-- A reserved field is not zero. -/
  | reservedBits
  /-- An EDGE's elapsed value does not fit in `TICK_BITS` bits. -/
  | elapsedTooWide
  /-- A READ of view 7. -/
  | badView
  deriving DecidableEq, Repr

end Sys2Proof
end

