-- ==== Sys2Proof/Machine/Operands.lean ====
section
/-! DEFINITION. The operand forms of the step words: the direction bit, the view number and the two
bytes of a logical command (spec/30_encoding.md R85, spec/20_memory.md R53). -/

namespace Sys2Proof

/-- The bit of a direction: Falling = 0, Rising = 1 (R30, R74). -/
def Dir.bit : Dir → Bool
  | .falling => false
  | .rising => true

/-- The direction of a bit (R76). -/
def Dir.ofBit (b : Bool) : Dir := if b then .rising else .falling

/-- The other direction: `1 - d` on the direction bit (R200, R214). -/
def Dir.flip : Dir → Dir
  | .falling => .rising
  | .rising => .falling

/-- The number of a view (R42). -/
def View.index : View → BitVec 3
  | .status => 0
  | .resetCount => 1
  | .mbElapsed => 2
  | .frameA => 3
  | .frameB => 4
  | .txFrameA => 5
  | .txFrameB => 6

/-- The view of a number, none for the reserved 7 (R82). -/
def View.ofIndex (n : BitVec 3) : Option View :=
  if n = 0 then some .status
  else if n = 1 then some .resetCount
  else if n = 2 then some .mbElapsed
  else if n = 3 then some .frameA
  else if n = 4 then some .frameB
  else if n = 5 then some .txFrameA
  else if n = 6 then some .txFrameB
  else none

/-- `cmd[15:8]`, which becomes frame byte 2 (R53, R85). -/
def Command.hi (c : Command) : Byte := c.extractLsb' 8 8

/-- `cmd[7:0]`, which becomes frame byte 4 (R53, R85). -/
def Command.lo (c : Command) : Byte := c.extractLsb' 0 8

/-- `(hi << 8) | lo` (R53, R153). -/
def Command.ofBytes (hi lo : Byte) : Command := hi.setWidth 16 <<< 8 ||| lo.setWidth 16

end Sys2Proof
end

