-- ==== Sys2Proof/WellFormed.lean ====
section
/-! DEFINITION. Which terms of `Instr` are instructions of a block with `TICK_BITS = tickBits`. The only
check the type does not make is the width of an elapsed count (spec/30_encoding.md R83, R84). -/

namespace Sys2Proof

/-- A term is well formed when an EDGE's elapsed count fits in `TICK_BITS` bits (R84, R200). -/
def Instr.wellFormed (tickBits : Nat) : Instr → Bool
  | .edge _ elapsed => decide (elapsed.toNat < 2 ^ tickBits)
  | .poll => true
  | .complete => true
  | .txreq _ _ => true
  | .txstep => true
  | .read _ => true
  | .reset => true

end Sys2Proof
end

