-- ==== Sys2Proof/Decode.lean ====
section
/-! DEFINITION. The decoder of spec/30_encoding.md R83, total on 32-bit words and refusing by name, and
the encoder written from the format table of R75 and the words of R87. -/

namespace Sys2Proof

/-- Bits [31:28] (R75). -/
def opcodeField (w : Word) : BitVec 4 := w.extractLsb' 28 4

/-- A word all of whose bits [27:0] must be zero (R77, R78, R80, R81). -/
def decodeBare (w : Word) (i : Instr) : Except WordRefusal Instr :=
  if w.extractLsb' 0 28 ≠ 0 then .error .reservedBits else .ok i

/-- EDGE: the reserved bits [27:25] are tested before the width of the elapsed value (R76, R83). -/
def decodeEdge (tickBits : Nat) (w : Word) : Except WordRefusal Instr :=
  if w.extractLsb' 25 3 ≠ 0 then .error .reservedBits
  else if 2 ^ tickBits ≤ (w.extractLsb' 0 24).toNat then .error .elapsedTooWide
  else .ok (.edge (Dir.ofBit (w.getLsbD 24)) (w.extractLsb' 0 24))

/-- TXREQ (R79, R83). -/
def decodeTxreq (w : Word) : Except WordRefusal Instr :=
  if w.extractLsb' 24 4 ≠ 0 then .error .reservedBits
  else .ok (.txreq (w.extractLsb' 16 8) (w.extractLsb' 0 16))

/-- READ: the reserved bits [27:3] are tested before the view (R82, R83). -/
def decodeRead (w : Word) : Except WordRefusal Instr :=
  if w.extractLsb' 3 25 ≠ 0 then .error .reservedBits
  else
    match View.ofIndex (w.extractLsb' 0 3) with
    | none => .error .badView
    | some v => .ok (.read v)

/-- `decode` of R83, at `TICK_BITS = tickBits`. -/
def decode (tickBits : Nat) (w : Word) : Except WordRefusal Instr :=
  let op := opcodeField w
  if op = 0x1 then decodeEdge tickBits w
  else if op = 0x2 then decodeBare w .poll
  else if op = 0x3 then decodeBare w .complete
  else if op = 0x4 then decodeTxreq w
  else if op = 0x5 then decodeBare w .txstep
  else if op = 0x6 then decodeRead w
  else if op = 0xF then decodeBare w .reset
  else .error .illegalOpcode

/-- The word of a step, field by field from the format table of R75. -/
def encode : Instr → Word
  | .edge d e => 0x1#4 ++ 0#3 ++ BitVec.ofBool d.bit ++ e
  | .poll => 0x2#4 ++ 0#28
  | .complete => 0x3#4 ++ 0#28
  | .txreq a c => 0x4#4 ++ 0#4 ++ a ++ c
  | .txstep => 0x5#4 ++ 0#28
  | .read v => 0x6#4 ++ 0#25 ++ v.index
  | .reset => 0xF#4 ++ 0#28

/-- The instruction the decoder reads from a table word of `nbits` bits, the bits above them zero, at the
default configuration, which is that of `State.reset` (entry 14). A step word has no byte order
(spec/20_memory.md R50): its 32 bits are presented at once. -/
def decodeTableWord (nbits w : Nat) : Option Instr :=
  match decode Config.default.tickBits (BitVec.ofNat 32 (w % 2 ^ nbits)) with
  | .ok i => some i
  | .error _ => none

end Sys2Proof
end

