-- ==== Sys2Proof/Machine/Classifier.lean ====
section
/-! DEFINITION. The pulse timing classifier of spec/40_classifier.md (R100 to R105), combinational, and
the legality of a configuration (spec/00_scope.md R8, R9), which is stated through its window bounds. -/

namespace Sys2Proof.Machine

/-- `toTicks(us) = (us * TICK_RATE_HZ) div 1000000`, the product exact and the quotient truncated (R100). -/
def toTicks (c : Config) (us : Nat) : Nat := us * c.tickRateHz / 1000000

/-- `lo(T)` (R101). The subtraction is of naturals: a legal margin is at most `T` (R8). -/
def lo (c : Config) (us : Nat) : Nat := toTicks c (us - c.marginUs)

/-- `hi(T)` (R101). -/
def hi (c : Config) (us : Nat) : Nat := toTicks c (us + c.marginUs)

/-- `inWindow(e, T)`: both bounds inclusive (R102). -/
def inWindow (c : Config) (e : Ticks) (us : Nat) : Bool :=
  decide (lo c us ≤ e.toNat) && decide (e.toNat ≤ hi c us)

/-- The duration classes (R103). -/
inductive DurationClass where
  | trainingPulse
  | silenceAfterTraining
  | shortMark
  | longSpace
  | shortSpace
  deriving DecidableEq, Repr

/-- The nominal duration of a class, in microseconds (R103). -/
def nominalUs (c : Config) : DurationClass → Nat
  | .trainingPulse => c.trainUs
  | .silenceAfterTraining => c.silenceUs
  | .shortMark => c.shortUs
  | .longSpace => c.longUs
  | .shortSpace => c.shortUs

/-- The test a receive rule makes of a class: the window, but for a bit mark the upper bound alone unless
`MARK_LOWER_CHECK` is set (R103, R104). -/
def classify (c : Config) (k : DurationClass) (e : Ticks) : Bool :=
  match k with
  | .shortMark =>
    decide (e.toNat ≤ hi c c.shortUs) && (!c.markLowerCheck || decide (lo c c.shortUs ≤ e.toNat))
  | .trainingPulse => inWindow c e c.trainUs
  | .silenceAfterTraining => inWindow c e c.silenceUs
  | .longSpace => inWindow c e c.longUs
  | .shortSpace => inWindow c e c.shortUs

/-- A legal configuration: the ranges of R8, and every window reachable by an elapsed value (R9). The
width of `DEV_ADDR` is its type. -/
def configLegal (c : Config) : Bool :=
  decide (1 ≤ c.tickRateHz) &&
  (decide (1 ≤ c.trainUs) && decide (1 ≤ c.silenceUs) && decide (1 ≤ c.shortUs) && decide (1 ≤ c.longUs)) &&
  decide (c.marginUs ≤ min (min c.trainUs c.silenceUs) (min c.shortUs c.longUs)) &&
  (decide (1 ≤ c.tickBits) && decide (c.tickBits ≤ 24)) &&
  (decide (1 ≤ c.resetCountBits) && decide (c.resetCountBits ≤ 16)) &&
  (decide (hi c c.trainUs < 2 ^ c.tickBits) && decide (hi c c.silenceUs < 2 ^ c.tickBits) &&
    decide (hi c c.shortUs < 2 ^ c.tickBits) && decide (hi c c.longUs < 2 ^ c.tickBits))

end Sys2Proof.Machine
end

