-- ==== Sys2Proof/Machine/State.lean ====
section
/-! DEFINITION. The machine's state as plain data: the record of spec/10_state.md R20 to R37 in the
groups of its sections 1.1 to 1.4, the configuration it runs under, and the model's own input queue
and output record. -/

namespace Sys2Proof.Machine

/-- The receive state (R21). -/
inductive RxState where
  | reset
  | trainingReceived
  | receivingBits
  | commandReceived
  deriving DecidableEq, Repr

/-- Six bytes in wire order (R22, R36, R70). -/
structure Frame where
  /-- Byte 0, the address. -/
  b0 : Byte
  /-- Byte 1, the address's complement. -/
  b1 : Byte
  /-- Byte 2, the high byte of the logical command. -/
  b2 : Byte
  /-- Byte 3, the complement of byte 2. -/
  b3 : Byte
  /-- Byte 4, the low byte of the logical command. -/
  b4 : Byte
  /-- Byte 5, the complement of byte 4. -/
  b5 : Byte
  deriving DecidableEq, Repr

/-- The all-zero frame, the reset value of both buffers (R44). -/
def Frame.zero : Frame := ⟨0, 0, 0, 0, 0, 0⟩

/-- The receive state machine's fields (10_state.md section 1.1). -/
structure Rx where
  /-- R21. -/
  rxState : RxState
  /-- The scratch frame buffer (R22). -/
  frame : Frame
  /-- The byte being assembled (R23). -/
  curByte : Byte
  /-- Bits already shifted into `curByte`, 0 to 7 (R24). -/
  bitCount : BitVec 3
  /-- Bytes already stored, 0 to 6 (R25). -/
  byteCount : BitVec 3
  /-- The diagnostic reset counter: `RESET_COUNT_BITS` of its 16 bits are in use (R27, R42; entry 7). -/
  resetCount : BitVec 16
  deriving DecidableEq, Repr

/-- The single-slot mailbox from the interrupt to the foreground (10_state.md section 1.2). -/
structure Mailbox where
  /-- R28. -/
  mbPending : Bool
  /-- The last captured count: `TICK_BITS` of its 24 bits are in use (R29, R42; entry 7). -/
  mbElapsed : Ticks
  /-- R30. -/
  mbDir : Dir
  deriving DecidableEq, Repr

/-- The capture controls (10_state.md section 1.3). -/
structure Capture where
  /-- The edge the capture facility watches for (R31). -/
  capPolarity : Dir
  /-- The receive-path enable (R32). -/
  capEnabled : Bool
  deriving DecidableEq, Repr

/-- The transmit fields (10_state.md section 1.4). -/
structure Tx where
  /-- R34. -/
  txActive : Bool
  /-- The next interval 0 to 98, or 99 (R35). -/
  txIndex : BitVec 7
  /-- The bytes being transmitted (R36). -/
  txFrame : Frame
  /-- The carrier generator's control output (R37; entry 9). -/
  carrier : Bool
  deriving DecidableEq, Repr

/-- The causes of a timing anomaly (R234). -/
inductive AnomalyCause where
  | idle
  | silence
  | mark
  | space
  deriving DecidableEq, Repr

/-- The causes of a frame rejection (R235). -/
inductive RejectCause where
  | addr
  | pair0
  | pair1
  | pair2
  deriving DecidableEq, Repr

/-- Why an edge was not captured (R201, R202, R236). -/
inductive DropReason where
  | disabled
  | polarity
  deriving DecidableEq, Repr

/-- An output event (R15). The first four are hardware outputs, the rest model-only diagnostics (R236). -/
inductive Event where
  /-- `TimerReset`, to the free-running timer (R244). -/
  | timerReset
  /-- `CmdDecoded(c)`, the call of `onCommandDecoded` (R132, R247). -/
  | cmdDecoded (c : Command)
  /-- `Mark(d)`: carrier on for `d` microseconds (R73, R176). -/
  | mark (us : Nat)
  /-- `Space(d)`: carrier off for `d` microseconds (R73, R177). -/
  | space (us : Nat)
  /-- `Anomaly(cause)` (R128, R234). -/
  | anomaly (cause : AnomalyCause)
  /-- `Reject(cause)` (R130, R235). -/
  | reject (cause : RejectCause)
  /-- `Overrun` (R204). -/
  | overrun
  /-- `EdgeDropped(reason)` (R201, R202). -/
  | edgeDropped (reason : DropReason)
  /-- `TxDone` (R174). -/
  | txDone
  deriving DecidableEq, Repr

/-- How the last step taken ended (R16). The model's own field: it carries what a step returns (entry 3). -/
inductive Result where
  /-- No step has been taken. -/
  | none
  /-- The step was enabled and took effect. -/
  | completed
  /-- A READ was taken and returned this view value (R82). -/
  | value (v : Word)
  /-- `NotEnabled`: the word is well formed but has no step in the state, which is unchanged (R16, R208). -/
  | notEnabled
  /-- `Refused(reason)`: the word is no legal encoding; the state is unchanged (R16, R83, R237; entry 2). -/
  | refused (reason : WordRefusal)
  deriving DecidableEq, Repr

/-- The reasons for a hardware fault: there are none. "The block raises no synchronous exception, takes
no trap and has no fault state" (spec/60_exceptions.md R230). -/
inductive Fault where
  deriving DecidableEq, Repr

/-- Why the model gives no next state: never a hardware fault (R16, R237), and never raised by `step`. A word
that is no legal encoding leaves a next state, with `Result.refused`. -/
inductive Refusal where
  /-- Raised by `construct` on a configuration that is not legal (R9, D33). Safe: no block exists (entry 5). -/
  | illegalConfig
  /-- Raised by an arm of `exec` that has no meaning yet. Safe: no next state is claimed. No arm raises it. -/
  | notModelled (mnemonic : String)
  deriving DecidableEq, Repr

/-- The machine's state. The spec's record is `rx`, `mb`, `cap` and `tx`. -/
structure State where
  /-- The configuration, fixed for the run (R8, R10; entry 4). -/
  cfg : Config
  /-- Receive state machine fields (R21 to R27). -/
  rx : Rx
  /-- Mailbox fields (R28 to R30). -/
  mb : Mailbox
  /-- Capture control fields (R31, R32). -/
  cap : Capture
  /-- Transmit fields (R34 to R37). -/
  tx : Tx
  /-- The step words still to be taken, the next one first (R57, R75, R210). The model's own input queue;
  entry 1. -/
  stimulus : List Word
  /-- The block's output trace, oldest event first (R15). Entry 3. -/
  trace : List Event
  /-- How the last step ended (R16, R82). Entry 3. -/
  result : Result
  deriving DecidableEq, Repr

/-- The reset values of the receive fields (R44). -/
def Rx.reset : Rx := ⟨.reset, Frame.zero, 0, 0, 0, 0⟩

/-- The reset values of the mailbox (R44). -/
def Mailbox.reset : Mailbox := ⟨false, 0, .falling⟩

/-- The reset values of the capture controls (R44). -/
def Capture.reset : Capture := ⟨.falling, true⟩

/-- The reset values of the transmit fields (R44). -/
def Tx.reset : Tx := ⟨false, 0, Frame.zero, false⟩

/-- The block at construction from a configuration (R44, R271): no step word waiting, nothing emitted
(entries 18 and 19). -/
def State.initial (c : Config) : State :=
  ⟨c, Rx.reset, Mailbox.reset, Capture.reset, Tx.reset, [], [], .none⟩

/-- The machine right after reset: the field values of R44 at the default configuration of R8. -/
def State.reset : State := State.initial Config.default

/-- `s` with other receive fields. -/
def State.withRx (s : State) (r : Rx) : State := { s with rx := r }

/-- `s` with another mailbox. -/
def State.withMb (s : State) (m : Mailbox) : State := { s with mb := m }

/-- `s` with other capture controls. -/
def State.withCap (s : State) (c : Capture) : State := { s with cap := c }

/-- `s` with other transmit fields. -/
def State.withTx (s : State) (t : Tx) : State := { s with tx := t }

/-- `s` with another input queue. -/
def State.withStimulus (s : State) (ws : List Word) : State := { s with stimulus := ws }

/-- `s` with the result of a step. -/
def State.withResult (s : State) (r : Result) : State := { s with result := r }

/-- `emit E`: append an output event to the trace (R15). -/
def State.emit (s : State) (e : Event) : State := { s with trace := s.trace ++ [e] }

end Sys2Proof.Machine
end

