-- ==== Sys2Proof/Machine/Flags.lean ====
section
/-! DEFINITION. The block's flags (spec/10_state.md R40: no condition codes exist) and what they decide:
the codes of the state and direction values, and which step is enabled (spec/44_capture_dispatch.md R208). -/

namespace Sys2Proof.Machine

/-- The 2-bit code of a receive state (R21). -/
def rxStateCode : RxState → BitVec 2
  | .reset => 0
  | .trainingReceived => 1
  | .receivingBits => 2
  | .commandReceived => 3

/-- The code of an anomaly cause (R234). -/
def anomalyCode : AnomalyCause → Nat
  | .idle => 1
  | .silence => 2
  | .mark => 3
  | .space => 4

/-- The code of a reject cause (R235). -/
def rejectCode : RejectCause → Nat
  | .addr => 1
  | .pair0 => 2
  | .pair1 => 3
  | .pair2 => 4

/-- Whether an event is a hardware output; the others are model-only diagnostics (R15, R236). -/
def isHardwareOutput : Event → Bool
  | .timerReset => true
  | .cmdDecoded _ => true
  | .mark _ => true
  | .space _ => true
  | .anomaly _ => false
  | .reject _ => false
  | .overrun => false
  | .edgeDropped _ => false
  | .txDone => false

/-- Who takes a step (R6, R208). -/
inductive Agent where
  | environment
  | foreground
  | observer
  deriving DecidableEq, Repr

/-- The agent column of R208. -/
def agentOf : Instr → Agent
  | .edge _ _ => .environment
  | .poll => .foreground
  | .complete => .foreground
  | .txreq _ _ => .foreground
  | .txstep => .foreground
  | .read _ => .observer
  | .reset => .environment

/-- `txActive = 0 and rxState != CommandReceived`: the condition of POLL and TXREQ (R208). -/
def foregroundFree (s : State) : Bool := !s.tx.txActive && !decide (s.rx.rxState = .commandReceived)

/-- `txActive = 0 and rxState = CommandReceived`: the condition of COMPLETE (R208, R209). -/
def frameWaiting (s : State) : Bool := !s.tx.txActive && decide (s.rx.rxState = .commandReceived)

/-- The enabling table of R208. -/
def enabled (i : Instr) (s : State) : Bool :=
  match i with
  | .edge _ _ => true
  | .poll => foregroundFree s
  | .complete => frameWaiting s
  | .txreq _ _ => foregroundFree s
  | .txstep => s.tx.txActive
  | .read _ => true
  | .reset => true

end Sys2Proof.Machine
end

