-- ==== Sys2Proof/Machine/Ops.lean ====
section
/-! DEFINITION. The shared operations of the step words: the frame buffers, the procedures appendBit,
anomaly, take and rearm of spec/41_receive.md and spec/44_capture_dispatch.md, the interrupt handler's
capture, the outcomes of spec/00_scope.md R16, and the input queue. Memory operations: none (R50). The
block takes no exception (R230); its one interrupt entry is `captureEdge`, and the return from it restores
nothing (R241, R242). -/

namespace Sys2Proof.Machine

/-- The outcome type of a step. -/
abbrev StepOutcome := Host.Outcome State Fault Refusal

/-- Byte `i` of a frame. No rule reads a byte past 5; there the value is 0 (entry 8). -/
def Frame.get (f : Frame) (i : Nat) : Byte :=
  match i with
  | 0 => f.b0
  | 1 => f.b1
  | 2 => f.b2
  | 3 => f.b3
  | 4 => f.b4
  | 5 => f.b5
  | _ => 0

/-- `frame[i] <- v` (R127). No run writes a byte past 5; there nothing is written (entry 8). -/
def Frame.set (f : Frame) (i : Nat) (v : Byte) : Frame :=
  match i with
  | 0 => { f with b0 := v }
  | 1 => { f with b1 := v }
  | 2 => { f with b2 := v }
  | 3 => { f with b3 := v }
  | 4 => { f with b4 := v }
  | 5 => { f with b5 := v }
  | _ => f

/-- Bit `k` of a frame in the order sent: bytes in order, most significant bit first (R52, R71). -/
def frameBit (f : Frame) (k : Nat) : Bool := (f.get (k / 8)).getLsbD (7 - k % 8)

/-- `sat_inc_N(v) = min(v + 1, 2^N - 1)` (R13). -/
def satInc (bits : Nat) (v : BitVec 16) : BitVec 16 := BitVec.ofNat 16 (min (v.toNat + 1) (2 ^ bits - 1))

/-- The receive state Reset with an empty scratch buffer, the counter kept (R128, R130, R172). -/
def clearRx (r : Rx) : Rx :=
  { r with rxState := .reset, frame := Frame.zero, curByte := 0, bitCount := 0, byteCount := 0 }

/-- `appendBit(b)` (R127): shift into the current byte, store it when it has 8 bits, and enter
CommandReceived when 6 bytes are stored. -/
def appendBit (b : Bool) (r : Rx) : Rx :=
  let cur := r.curByte <<< 1 ||| (BitVec.ofBool b).setWidth 8
  if r.bitCount.toNat + 1 = 8 then
    { r with
      frame := r.frame.set r.byteCount.toNat cur
      byteCount := r.byteCount + 1
      bitCount := 0
      curByte := 0
      rxState := if r.byteCount.toNat + 1 = 6 then .commandReceived else r.rxState }
  else
    { r with curByte := cur, bitCount := r.bitCount + 1 }

/-- `anomaly(cause)` (R128): Reset with an empty scratch buffer, the counter one more with saturation;
mailbox and capture controls are not touched. -/
def anomaly (cause : AnomalyCause) (s : State) : State :=
  (s.withRx { clearRx s.rx with resetCount := satInc s.cfg.resetCountBits s.rx.resetCount }).emit (.anomaly cause)

/-- The state after `take()`, whose values are the mailbox's direction and count (R206). -/
def take (s : State) : State := s.withMb { s.mb with mbPending := false }

/-- `rearm()` (R207): discard an event not yet taken, watch for Falling, reset the timer. -/
def rearm (s : State) : State :=
  ((s.withMb { s.mb with mbPending := false }).withCap { s.cap with capPolarity := .falling }).emit .timerReset

/-- The interrupt handler on an edge of the watched polarity: overwrite the mailbox, toggle the polarity,
reset the timer, one atomic step (R203, R204, R205, R241; entry 10). -/
def captureEdge (d : Dir) (e : Ticks) (s : State) : State :=
  let s := if s.mb.mbPending then s.emit .overrun else s
  ((s.withMb ⟨true, e, d⟩).withCap { s.cap with capPolarity := s.cap.capPolarity.flip }).emit .timerReset

/-- A step that took effect (R16). -/
def completed (s : State) : StepOutcome := .next (s.withResult .completed)

/-- `NotEnabled`: the state of the block is unchanged, and the result says so (R16, R208). -/
def notEnabled (s : State) : StepOutcome := .next (s.withResult .notEnabled)

/-- A step that returned a value and changed nothing (R82). -/
def answered (v : Word) (s : State) : StepOutcome := .next (s.withResult (.value v))

/-- Take the next step word from the input queue; none when no agent has one (entry 1). -/
def fetchWord (s : State) : Option (Word × State) :=
  match s.stimulus with
  | [] => none
  | w :: ws => some (w, s.withStimulus ws)

/-- Put a step word at the head of the input queue: the next one `fetchWord` takes. -/
def presentWord (s : State) (w : Word) : State := s.withStimulus (w :: s.stimulus)

/-- With no step word the block is idle with its state held (R250, R271; entry 1). -/
def idle (s : State) : StepOutcome := .next s

/-- `Refused(reason)`: the state of the block is unchanged, and the result says why (R16, R83, R237). -/
def refuseWord (r : WordRefusal) (s : State) : StepOutcome := .next (s.withResult (.refused r))

end Sys2Proof.Machine
end

