-- ==== Sys2Proof/Machine/Capture.lean ====
section
/-! DEFINITION. EDGE, the edge-capture interrupt (spec/44_capture_dispatch.md R200 to R205). -/

namespace Sys2Proof.Machine

/-- EDGE (R200): enabled in every state. The tests stand in the order of R240: a disabled receive path
drops the edge (R201), an edge of the other polarity raises no interrupt (R202), any other is captured (entry 17
on counts that do not fit). -/
def execEdge (d : Dir) (e : Ticks) (s : State) : StepOutcome :=
  if s.cap.capEnabled = false then completed (s.emit (.edgeDropped .disabled))
  else if d ≠ s.cap.capPolarity then completed (s.emit (.edgeDropped .polarity))
  else completed (captureEdge d e s)

end Sys2Proof.Machine
end

