-- ==== Sys2Proof/Machine/Validator.lean ====
section
/-! DEFINITION. The frame validator of spec/42_validator.md, combinational (R150 to R155). -/

namespace Sys2Proof.Machine

/-- The address byte is the configured address or the broadcast value (R151). -/
def addressAccepted (f : Frame) (a : Byte) : Bool := decide (f.b0 = a) || decide (f.b0 = broadcast)

/-- Two bytes are bitwise complements (R152). -/
def complementPair (x y : Byte) : Bool := decide (x ^^^ y = 0xFF)

/-- `validate(f, a)` (R150): the logical command of bytes 2 and 4 (R153, 90_conflicts.md C1), or none. -/
def validate (f : Frame) (a : Byte) : Option Command :=
  if addressAccepted f a = false then none
  else if complementPair f.b0 f.b1 = false then none
  else if complementPair f.b2 f.b3 = false then none
  else if complementPair f.b4 f.b5 = false then none
  else some (Command.ofBytes f.b2 f.b4)

/-- `rejectCause(f, a)`: the first failing check in the order of R150 (R155). The spec defines it only where
`validate` is none, and only there is it used (entry 11). -/
def rejectCause (f : Frame) (a : Byte) : RejectCause :=
  if addressAccepted f a = false then .addr
  else if complementPair f.b0 f.b1 = false then .pair0
  else if complementPair f.b2 f.b3 = false then .pair1
  else .pair2

end Sys2Proof.Machine
end

