-- ==== Sys2Proof/Machine/Receive.lean ====
section
/-! DEFINITION. The receive state machine of spec/41_receive.md: POLL (R120 to R128) and COMPLETE (R130 to
R132). -/

namespace Sys2Proof.Machine

/-- `stepReset(d, e)` (R123). Where the short unit lies above the training window, a nominal bit mark taken here is an
anomaly, as R102 and R123 give it, though R107's fourth line and C13 call it a training pulse: the model's choice,
entry 13. -/
def stepReset (d : Dir) (e : Ticks) (s : State) : State :=
  if d = .rising ∧ classify s.cfg .trainingPulse e then s.withRx { s.rx with rxState := .trainingReceived }
  else anomaly .idle s

/-- `stepTraining(d, e)` (R124). The Rising case is kept for totality; it does arise after an overrun
(entry 12). -/
def stepTraining (d : Dir) (e : Ticks) (s : State) : State :=
  if d = .falling ∧ classify s.cfg .silenceAfterTraining e then s.withRx { s.rx with rxState := .receivingBits }
  else anomaly .silence s

/-- `stepMark(e)` (R125): a bit mark within its bound writes no field. -/
def stepMark (e : Ticks) (s : State) : State :=
  if classify s.cfg .shortMark e then s else anomaly .mark s

/-- `stepSpace(e)` (R126): LongSpace is tested before ShortSpace. Where the short unit lies above the LongSpace window, a
nominal 0 bit is 0, as R102 and R126 give it, though R107's first line excludes it: the model's choice, entry 13. -/
def stepSpace (e : Ticks) (s : State) : State :=
  if classify s.cfg .longSpace e then s.withRx (appendBit true s.rx)
  else if classify s.cfg .shortSpace e then s.withRx (appendBit false s.rx)
  else anomaly .space s

/-- The one transition a taken event makes (R120, R122). POLL is not enabled in CommandReceived (R129), so
that row writes nothing. -/
def receiveEvent (d : Dir) (e : Ticks) (s : State) : State :=
  match s.rx.rxState with
  | .reset => stepReset d e s
  | .trainingReceived => stepTraining d e s
  | .receivingBits =>
    match d with
    | .rising => stepMark e s
    | .falling => stepSpace e s
  | .commandReceived => s

/-- POLL (R120): with nothing pending an idle iteration (R121), else the take and one transition. -/
def execPoll (s : State) : StepOutcome :=
  if enabled .poll s = false then notEnabled s
  else if s.mb.mbPending = false then completed s
  else completed (receiveEvent s.mb.mbDir s.mb.mbElapsed (take s))

/-- What COMPLETE does with the validator's answer: hand the command to the dispatcher and clear the
counter, or report the cause and keep it (R130, R132, D37). -/
def dispatchFrame (s : State) : State :=
  match validate s.rx.frame s.cfg.devAddr with
  | some c => (s.emit (.cmdDecoded c)).withRx { s.rx with resetCount := 0 }
  | none => s.emit (.reject (rejectCause s.rx.frame s.cfg.devAddr))

/-- Discard the frame and return to Reset (R130, R131). -/
def discardFrame (s : State) : State := s.withRx (clearRx s.rx)

/-- COMPLETE (R130). -/
def execComplete (s : State) : StepOutcome :=
  if enabled .complete s = false then notEnabled s
  else completed (rearm (discardFrame (dispatchFrame s)))

end Sys2Proof.Machine
end

