-- ==== Sys2Proof/Machine/Reset.lean ====
section
/-! DEFINITION. RESET and construction (spec/70_reset_and_hazards.md R270 to R272). -/

namespace Sys2Proof.Machine

/-- Every field of the spec's record at its reset value (R44, R270). The configuration is no state, and the
step words still to come and the events already emitted are not the block's to reset. -/
def resetBlock (s : State) : State :=
  (((s.withRx Rx.reset).withMb Mailbox.reset).withCap Capture.reset).withTx Tx.reset

/-- RESET (R270): enabled in every state. -/
def execReset (s : State) : StepOutcome := completed ((resetBlock s).emit .timerReset)

/-- Construction: the block of a legal configuration in the state of R44; an illegal one is refused (R9, R271,
R272, D33). -/
def construct (c : Config) : StepOutcome :=
  if configLegal c then .next (State.initial c) else .refused .illegalConfig

end Sys2Proof.Machine
end

