-- ==== Sys2Proof/Machine/Transmit.lean ====
section
/-! DEFINITION. The transmit encoder of spec/43_transmit.md: TXREQ (R170 to R173), TXSTEP (R174 to R178) and
the pulse train of spec/30_encoding.md R72. -/

namespace Sys2Proof.Machine

/-- An interval of the pulse train: carrier on or off for so many microseconds (R73). -/
inductive PulseInterval where
  | mark (us : Nat)
  | space (us : Nat)
  deriving DecidableEq, Repr

/-- `encodeFrame(a, c)` (R171). -/
def encodeFrame (a : Byte) (c : Command) : Frame :=
  ⟨a, a ^^^ 0xFF, Command.hi c, Command.hi c ^^^ 0xFF, Command.lo c, Command.lo c ^^^ 0xFF⟩

/-- `pulse(f, i)`, interval `i` of the train (R72, R175); the terminating mark lasts `T_SHORT_US` (D16). -/
def pulse (c : Config) (f : Frame) (i : Nat) : PulseInterval :=
  if i = 0 then .mark c.trainUs
  else if i = 1 then .space c.silenceUs
  else if i = 98 then .mark c.shortUs
  else if i % 2 = 0 then .mark c.shortUs
  else if frameBit f ((i - 2) / 2) then .space c.longUs
  else .space c.shortUs

/-- The 99 intervals of a frame in order (R72). -/
def pulseTrain (c : Config) (f : Frame) : List PulseInterval := (List.range 99).map (pulse c f)

/-- The output event of an interval (R176, R177). -/
def intervalEvent : PulseInterval → Event
  | .mark us => .mark us
  | .space us => .space us

/-- The carrier generator's `start()` (R176, R245). -/
def carrierStart (s : State) : State := s.withTx { s.tx with carrier := true }

/-- The carrier generator's `stop()` (R176, R245). -/
def carrierStop (s : State) : State := s.withTx { s.tx with carrier := false }

/-- `emitInterval` (R176, R177): a mark starts the carrier, waits and stops it within the step; a space waits
with the carrier stopped. The wait is recorded as data (R18). -/
def emitInterval (iv : PulseInterval) (s : State) : State :=
  match iv with
  | .mark us => (carrierStop (carrierStart s)).emit (.mark us)
  | .space us => s.emit (.space us)

/-- The effect of a transmit request on the receive fields (R172). -/
def txreqRx (p : TxRxPolicy) (r : Rx) : Rx :=
  match p with
  | .reset => clearRx r
  | .preserve => r

/-- TXREQ (R170): store the frame, start the transmission, disable the receive path (R173). -/
def execTxreq (addr : Byte) (cmd : Command) (s : State) : StepOutcome :=
  if enabled (.txreq addr cmd) s = false then notEnabled s
  else
    completed (((s.withTx { s.tx with txFrame := encodeFrame addr cmd, txActive := true, txIndex := 0 }).withCap
      { s.cap with capEnabled := false }).withRx (txreqRx s.cfg.txRxPolicy s.rx))

/-- TXSTEP on an index up to 98: emit the interval and count (R174, R175). -/
def txEmit (s : State) : State :=
  let s := emitInterval (pulse s.cfg s.tx.txFrame s.tx.txIndex.toNat) s
  s.withTx { s.tx with txIndex := s.tx.txIndex + 1 }

/-- The last TXSTEP: enable the receive path, re-arm, end the transmission (R174, R178). -/
def txFinish (s : State) : State :=
  let s := rearm (s.withCap { s.cap with capEnabled := true })
  (s.withTx { s.tx with txActive := false, txIndex := 0 }).emit .txDone

/-- TXSTEP (R174). -/
def execTxstep (s : State) : StepOutcome :=
  if enabled .txstep s = false then notEnabled s
  else if s.tx.txIndex.toNat ≤ 98 then completed (txEmit s)
  else completed (txFinish s)

end Sys2Proof.Machine
end

