-- ==== Sys2Proof/Machine/Views.lean ====
section
/-! DEFINITION. The seven observation views of spec/10_state.md R42 and READ, which reads them
(spec/30_encoding.md R82). -/

namespace Sys2Proof.Machine

/-- View 0, STATUS, from bit 31 down to bit 0 (R42). -/
def statusView (s : State) : Word :=
  0#12 ++ s.tx.txIndex ++ BitVec.ofBool s.tx.txActive ++ BitVec.ofBool s.cap.capEnabled
    ++ BitVec.ofBool s.cap.capPolarity.bit ++ BitVec.ofBool s.mb.mbDir.bit ++ BitVec.ofBool s.mb.mbPending
    ++ s.rx.byteCount ++ s.rx.bitCount ++ rxStateCode s.rx.rxState

/-- The value of an observation view (R42). -/
def viewValue (v : View) (s : State) : Word :=
  match v with
  | .status => statusView s
  | .resetCount => 0#16 ++ s.rx.resetCount
  | .mbElapsed => 0#8 ++ s.mb.mbElapsed
  | .frameA => s.rx.frame.b0 ++ s.rx.frame.b1 ++ s.rx.frame.b2 ++ s.rx.frame.b3
  | .frameB => s.rx.frame.b4 ++ s.rx.frame.b5 ++ s.rx.curByte ++ 0#8
  | .txFrameA => s.tx.txFrame.b0 ++ s.tx.txFrame.b1 ++ s.tx.txFrame.b2 ++ s.tx.txFrame.b3
  | .txFrameB => s.tx.txFrame.b4 ++ s.tx.txFrame.b5 ++ 0#16

/-- READ (R82): returns the view's value, changes no state and emits no event. -/
def execRead (v : View) (s : State) : StepOutcome := answered (viewValue v s) s

end Sys2Proof.Machine
end

