-- ==== Sys2Proof/Machine/Dispatch.lean ====
section
/-! DEFINITION. The meaning of every step word: one arm per constructor of `Instr`. -/

namespace Sys2Proof.Machine

/-- The effect of a step on the machine. -/
def exec (i : Instr) (s : State) : Host.Outcome State Fault Refusal :=
  match i with
  | .edge dir elapsed => Sys2Proof.Machine.execEdge dir elapsed s
  | .poll => Sys2Proof.Machine.execPoll s
  | .complete => Sys2Proof.Machine.execComplete s
  | .txreq addr cmd => Sys2Proof.Machine.execTxreq addr cmd s
  | .txstep => Sys2Proof.Machine.execTxstep s
  | .read view => Sys2Proof.Machine.execRead view s
  | .reset => Sys2Proof.Machine.execReset s

end Sys2Proof.Machine
end

