-- ==== Sys2Proof/Machine/Step.lean ====
section
/-! DEFINITION. One step: the next step word is taken from the input queue, decoded at the configured
`TICK_BITS` (spec/30_encoding.md R83), and run. Every step answers a next state: an ill-formed word leaves the
block unchanged (R16), and the block has no fault (R230). -/

namespace Sys2Proof.Machine

/-- One step of the machine. -/
def step (s : State) : Host.Outcome State Fault Refusal :=
  match fetchWord s with
  | none => idle s
  | some (w, s') =>
    match decode s.cfg.tickBits w with
    | .error r => refuseWord r s'
    | .ok i => exec i s'

/-- `s` with the step word `w` of `nbits` bits, the bits above them zero, as the next word `step` takes
(entry 1). -/
def State.withFetchWord (s : State) (nbits w : Nat) : State := presentWord s (BitVec.ofNat 32 (w % 2 ^ nbits))

end Sys2Proof.Machine
end

