-- ==== Sys2Proof/Machine/LineModel.lean ====
section
/-! DEFINITION. The environment of the block, not the block: the line model of
spec/44_capture_dispatch.md R212, which turns a waveform into EDGE steps, and the foreground schedule
of R213. -/

namespace Sys2Proof.Machine

/-- The demodulated line: high while idle and in a space, low in a mark (R33, R212). -/
inductive Level where
  | high
  | low
  deriving DecidableEq, Repr

/-- The line as the model of R212 sees it: its level and the time since the block's last `TimerReset`. -/
structure Line where
  level : Level
  sinceReset : Nat
  deriving DecidableEq, Repr

/-- The count the timer shows after so many microseconds, at the configured overflow (R212, R244). -/
def elapsedCount (c : Config) (us : Nat) : Nat :=
  if toTicks c us < 2 ^ c.tickBits then toTicks c us
  else
    match c.timerOverflow with
    | .saturate => 2 ^ c.tickBits - 1
    | .wrap => toTicks c us % 2 ^ c.tickBits

/-- The direction of the line's next edge (R212). -/
def nextEdgeDir : Level → Dir
  | .high => .falling
  | .low => .rising

/-- The level after the next edge. -/
def otherLevel : Level → Level
  | .high => .low
  | .low => .high

/-- The EDGE step of the line's next change of level (R212). -/
def edgeStep (c : Config) (d : Dir) (us : Nat) : Instr := .edge d (BitVec.ofNat 24 (elapsedCount c us))

/-- What the environment does next: let time pass, change the line's level, or let an agent take a step.
Steps take no time (R18; entry 15). -/
inductive LineAction where
  | wait (us : Nat)
  | toggle
  | serve (i : Instr)
  deriving DecidableEq, Repr

/-- The line after a step of the block: the timer starts again when the step emitted `TimerReset` (R212, R244). -/
def observeTimer (l : Line) (before after : State) : Line :=
  if Event.timerReset ∈ after.trace.drop before.trace.length then { l with sinceReset := 0 } else l

/-- Take a step of the block beside the line. -/
def stepBeside (i : Instr) (l : Line) (s : State) : Host.Outcome (Line × State) Fault Refusal :=
  match exec i s with
  | .next s' => .next (observeTimer l s s', s')
  | .fault f => .fault f
  | .refused r => .refused r

/-- One action of the environment. -/
def lineAct (a : LineAction) (l : Line) (s : State) : Host.Outcome (Line × State) Fault Refusal :=
  match a with
  | .wait us => .next ({ l with sinceReset := l.sinceReset + us }, s)
  | .toggle =>
    stepBeside (edgeStep s.cfg (nextEdgeDir l.level) l.sinceReset) { l with level := otherLevel l.level } s
  | .serve i => stepBeside i l s

/-- A sequence of actions. -/
def runLine : List LineAction → Line → State → Host.Outcome (Line × State) Fault Refusal
  | [], l, s => .next (l, s)
  | a :: as, l, s =>
    match lineAct a l s with
    | .next (l', s') => runLine as l' s'
    | .fault f => .fault f
    | .refused r => .refused r

/-- The time of an interval, in microseconds (R73). -/
def intervalUs : PulseInterval → Nat
  | .mark us => us
  | .space us => us

/-- The level of the line in an interval: low in a mark, high in a space (R33, R212). -/
def intervalLevel : PulseInterval → Level
  | .mark _ => .low
  | .space _ => .high

/-- The line goes from one level to another: an edge, served by a POLL, when the level changes, and no edge when
it does not (R212). -/
def levelActions (before after : Level) : List LineAction :=
  if before = after then [] else [.toggle, .serve .poll]

/-- The intervals of a waveform on a line at a level, and its return to idle, which is high (R212). -/
def intervalsActions : Level → List PulseInterval → List LineAction
  | l, [] => levelActions l .high
  | l, iv :: ivs =>
    levelActions l (intervalLevel iv) ++ .wait (intervalUs iv) :: intervalsActions (intervalLevel iv) ivs

/-- A waveform on the line: an idle gap, then the intervals (R212), each edge served by one POLL. -/
def waveformActions (idleUs : Nat) (train : List PulseInterval) : List LineAction :=
  .wait idleUs :: intervalsActions .high train

/-- The edges of some intervals on a line that has been at a level for so many microseconds, when every edge is
captured: an interval at the same level lengthens the wait, one at the other level ends it (R212). -/
def edgesFrom (c : Config) : Level → Nat → List PulseInterval → List Instr
  | l, us, [] => if l = .high then [] else [edgeStep c (nextEdgeDir l) us]
  | l, us, iv :: ivs =>
    if l = intervalLevel iv then edgesFrom c l (us + intervalUs iv) ivs
    else edgeStep c (nextEdgeDir l) us :: edgesFrom c (intervalLevel iv) (intervalUs iv) ivs

/-- The edges of a waveform, an idle gap and intervals, when every edge is captured (R212). -/
def lineEdges (c : Config) (idleUs : Nat) (train : List PulseInterval) : List Instr :=
  edgesFrom c .high idleUs train

/-- The edge that ends an interval whose end is a change of level: Rising for a mark, Falling for a space (R212). -/
def intervalEdge (c : Config) (iv : PulseInterval) : Instr :=
  edgeStep c (nextEdgeDir (intervalLevel iv)) (intervalUs iv)

/-- Each edge served by one POLL before the next edge (R183, R274). -/
def servedByPoll (edges : List Instr) : List Instr := edges.flatMap fun e => [e, .poll]

/-- The steps of R183 for a pulse train after an idle gap: edges 0 to 98 each served by a POLL, and the final
Rising edge either before COMPLETE or after it. -/
def frameReception (c : Config) (idleUs : Nat) (train : List PulseInterval) (finalEdgeFirst : Bool) : List Instr :=
  let edges := lineEdges c idleUs train
  servedByPoll (edges.take 99) ++
    (if finalEdgeFirst then edges.drop 99 ++ [.complete] else .complete :: edges.drop 99)

/-- A transmission: TXREQ and 100 TXSTEP (43_transmit.md). -/
def transmission (addr : Byte) (cmd : Command) : List Instr := .txreq addr cmd :: List.replicate 100 .txstep

/-- One turn of the foreground loop of R213: COMPLETE when a frame waits, else the transmission the UI asks
for, else POLL. -/
def foregroundTurn (s : State) (request : Option (Byte × Command)) : List Instr :=
  if s.rx.rxState = .commandReceived then [.complete]
  else
    match request with
    | some (a, c) => transmission a c
    | none => [.poll]

end Sys2Proof.Machine
end

