-- ==== Sys2Proof/Machine/Assembler.lean ====
section
/-! DEFINITION. The assembler's lines and the pseudo-instructions of spec/30_encoding.md R87 and R88: text
that stands for step words. Lexical points the rules leave open are entry 16. -/

namespace Sys2Proof.Machine

/-- `rx <dir>, <n>`: an EDGE and the POLL that serves it (R88). -/
def pseudoRx (d : Dir) (e : Ticks) : List Instr := [.edge d e, .poll]

/-- `tx <addr>, <cmd>` (R88). -/
def pseudoTx (addr : Byte) (cmd : Command) : List Instr := transmission addr cmd

/-- `toTicks` as an elapsed operand. -/
def ticksOperand (c : Config) (us : Nat) : Ticks := BitVec.ofNat 24 (toTicks c us)

/-- The two `rx` of bit `k` (R88). -/
def pseudoBit (c : Config) (f : Frame) (k : Nat) : List Instr :=
  pseudoRx .rising (ticksOperand c c.shortUs) ++
    pseudoRx .falling (ticksOperand c (if frameBit f k then c.longUs else c.shortUs))

/-- `rxframe <idle>, <b0>, ..., <b5>`: 99 EDGE, 99 POLL and 1 COMPLETE (R88). -/
def pseudoRxframe (c : Config) (idle : Ticks) (f : Frame) : List Instr :=
  pseudoRx .falling idle ++ pseudoRx .rising (ticksOperand c c.trainUs)
    ++ pseudoRx .falling (ticksOperand c c.silenceUs)
    ++ (List.range 48).flatMap (pseudoBit c f) ++ [.complete]

/-- The value of a digit in base ten or sixteen. -/
def digitValue (ch : Char) : Option Nat :=
  if '0'.toNat ≤ ch.toNat ∧ ch.toNat ≤ '9'.toNat then some (ch.toNat - '0'.toNat)
  else if 'a'.toNat ≤ ch.toNat ∧ ch.toNat ≤ 'f'.toNat then some (ch.toNat - 'a'.toNat + 10)
  else if 'A'.toNat ≤ ch.toNat ∧ ch.toNat ≤ 'F'.toNat then some (ch.toNat - 'A'.toNat + 10)
  else none

/-- Digits in a base, most significant first, onto an accumulator. -/
def parseDigits (base : Nat) : List Char → Nat → Option Nat
  | [], acc => some acc
  | ch :: rest, acc =>
    match digitValue ch with
    | some v => if v < base then parseDigits base rest (acc * base + v) else none
    | none => none

/-- A number, decimal or `0x` hexadecimal (R12, R87), below a bound. -/
def parseNumber (bound : Nat) (t : List Char) : Option Nat :=
  let n :=
    match t with
    | [] => none
    | '0' :: 'x' :: [] => none
    | '0' :: 'x' :: ds => parseDigits 16 ds 0
    | ds => parseDigits 10 ds 0
  match n with
  | some v => if v < bound then some v else none
  | none => none

/-- The text before a comment's `;` (R87). -/
def stripComment (line : List Char) : List Char := line.takeWhile fun ch => ch ≠ ';'

/-- Tokens of a line, in order: words between blanks, and commas. `word` is the word being read, backwards. -/
def tokensFrom : List Char → List Char → List (List Char)
  | [], word => if word = [] then [] else [word.reverse]
  | ch :: rest, word =>
    let before := if word = [] then [] else [word.reverse]
    if ch = ' ' ∨ ch = '\t' then before ++ tokensFrom rest []
    else if ch = ',' then before ++ [','] :: tokensFrom rest []
    else tokensFrom rest (ch :: word)

/-- A direction operand (R87). -/
def parseDir (t : List Char) : Option Dir :=
  if t = "fall".toList then some .falling else if t = "rise".toList then some .rising else none

/-- A view operand: a number 0 to 6 or a name (R87). -/
def parseView (t : List Char) : Option View :=
  if t = "status".toList then some .status
  else if t = "resetcount".toList then some .resetCount
  else if t = "mbelapsed".toList then some .mbElapsed
  else if t = "frame_a".toList then some .frameA
  else if t = "frame_b".toList then some .frameB
  else if t = "txframe_a".toList then some .txFrameA
  else if t = "txframe_b".toList then some .txFrameB
  else (parseNumber 7 t).bind fun n => View.ofIndex (BitVec.ofNat 3 n)

/-- A byte operand. -/
def parseByte (t : List Char) : Option Byte := (parseNumber 256 t).map (BitVec.ofNat 8)

/-- A command operand. -/
def parseCommand (t : List Char) : Option Command := (parseNumber 65536 t).map (BitVec.ofNat 16)

/-- An elapsed operand: it fits the 24 bits of the field (R76). -/
def parseTicks (t : List Char) : Option Ticks := (parseNumber 16777216 t).map (BitVec.ofNat 24)

/-- The operands of a line, which stand between commas. -/
def operandsOf : List (List Char) → Option (List (List Char))
  | [] => some []
  | [t] => if t = [','] then none else some [t]
  | t :: comma :: rest =>
    if t = [','] ∨ comma ≠ [','] ∨ rest = [] then none else (operandsOf rest).map (t :: ·)

/-- A mnemonic without operands. -/
def assembleBare (name : List Char) : Option (List Instr) :=
  if name = "poll".toList then some [.poll]
  else if name = "complete".toList then some [.complete]
  else if name = "txstep".toList then some [.txstep]
  else if name = "reset".toList then some [.reset]
  else none

/-- A mnemonic with two operands: `edge`, `rx`, `txreq` and `tx`. -/
def assemblePair (name x y : List Char) : Option (List Instr) :=
  if name = "edge".toList then do
    let d ← parseDir x
    let e ← parseTicks y
    pure [.edge d e]
  else if name = "rx".toList then do
    let d ← parseDir x
    let e ← parseTicks y
    pure (pseudoRx d e)
  else if name = "txreq".toList then do
    let a ← parseByte x
    let c ← parseCommand y
    pure [.txreq a c]
  else if name = "tx".toList then do
    let a ← parseByte x
    let c ← parseCommand y
    pure (pseudoTx a c)
  else none

/-- A mnemonic and its operands (R87, R88). -/
def assembleParts (c : Config) (name : List Char) (args : List (List Char)) : Option (List Instr) :=
  match args with
  | [] => assembleBare name
  | [v] => if name = "read".toList then (parseView v).map fun v => [.read v] else none
  | [x, y] => assemblePair name x y
  | [i, t0, t1, t2, t3, t4, t5] =>
    if name = "rxframe".toList then do
      let idle ← parseTicks i
      let b0 ← parseByte t0
      let b1 ← parseByte t1
      let b2 ← parseByte t2
      let b3 ← parseByte t3
      let b4 ← parseByte t4
      let b5 ← parseByte t5
      pure (pseudoRxframe c idle ⟨b0, b1, b2, b3, b4, b5⟩)
    else none
  | _ => none

/-- One line of assembly: a step word, a pseudo-instruction, or nothing (R87, R88). -/
def assembleLine (c : Config) (line : List Char) : Option (List Instr) :=
  match tokensFrom (stripComment line) [] with
  | [] => some []
  | name :: rest => (operandsOf rest).bind fun args => assembleParts c name args

/-- The step words of some lines of assembly, in execution order. -/
def assemble (c : Config) : List (List Char) → Option (List Word)
  | [] => some []
  | l :: ls => do
    let is ← assembleLine c l
    let ws ← assemble c ls
    pure (is.map encode ++ ws)

end Sys2Proof.Machine
end

