-- ==== Sys2Proof/Safety.lean ====
section
/-! DEFINITION. What a sound state of the block is, and the words the statements use for a step's new
events and for runs. The block has no fault (spec/60_exceptions.md R230): a safe run is one that keeps
`Sound`. -/

namespace Sys2Proof.Machine

/-- The scratch buffer is empty (R26). -/
def scratchEmpty (r : Rx) : Prop := r.frame = Frame.zero ∧ r.curByte = 0 ∧ r.bitCount = 0 ∧ r.byteCount = 0

/-- The invariant of the block's record. -/
structure Sound (s : State) : Prop where
  /-- R9, R10. -/
  cfgLegal : configLegal s.cfg = true
  /-- R26, first half. -/
  scratch : s.rx.rxState = .reset ∨ s.rx.rxState = .trainingReceived → scratchEmpty s.rx
  /-- R25, R127: before the last byte at most five are stored. -/
  assembling : s.rx.rxState = .receivingBits → s.rx.byteCount.toNat ≤ 5
  /-- R26, second half. -/
  frameComplete : s.rx.rxState = .commandReceived →
    s.rx.byteCount = 6 ∧ s.rx.bitCount = 0 ∧ s.rx.curByte = 0
  /-- R27: the counter fits its width. -/
  countWidth : s.rx.resetCount.toNat < 2 ^ s.cfg.resetCountBits
  /-- R29: the elapsed count fits its width. -/
  elapsedWidth : s.mb.mbElapsed.toNat < 2 ^ s.cfg.tickBits
  /-- R214: the alternation invariant. -/
  alternation : s.mb.mbPending = true → s.cap.capPolarity = s.mb.mbDir.flip
  /-- R32, R173, R178: the receive path is disabled exactly while a transmission is in progress. -/
  pathPaired : s.cap.capEnabled = !s.tx.txActive
  /-- R35. -/
  indexRange : s.tx.txIndex.toNat ≤ 99
  /-- R35. -/
  indexIdle : s.tx.txActive = false → s.tx.txIndex = 0
  /-- R37. -/
  carrierOff : s.tx.carrier = false
  /-- R208: no transmission starts while a frame waits. -/
  noFrameWaits : s.tx.txActive = true → s.rx.rxState ≠ .commandReceived

/-- The events a step added to the trace. -/
def newEvents (before after : State) : List Event := after.trace.drop before.trace.length

/-- The logical commands handed to the dispatcher among some events (R132). -/
def decodedCommands : List Event → List Command
  | [] => []
  | .cmdDecoded c :: es => c :: decodedCommands es
  | _ :: es => decodedCommands es

/-- Run instructions one after the other. -/
def execAll : List Instr → State → StepOutcome
  | [], s => .next s
  | i :: is, s =>
    match exec i s with
    | .next s' => execAll is s'
    | .fault f => .fault f
    | .refused r => .refused r

/-- `s` with exactly these instructions in its input queue. -/
def queued (s : State) (is : List Instr) : State := s.withStimulus (is.map encode)

/-- The state a POLL leaves that takes the pending event: the mailbox emptied, these receive fields, these
new events, everything else as before (R120, R206). -/
def polled (s : State) (r : Rx) (evs : List Event) : State :=
  { s with rx := r, mb := { s.mb with mbPending := false }, trace := s.trace ++ evs, result := .completed }

/-- The receive fields after an anomaly: Reset, an empty scratch buffer, one more reset with saturation (R128). -/
def recoveredRx (s : State) : Rx :=
  ⟨.reset, ⟨0, 0, 0, 0, 0, 0⟩, 0, 0, 0,
    BitVec.ofNat 16 (min (s.rx.resetCount.toNat + 1) (2 ^ s.cfg.resetCountBits - 1))⟩

/-- The bits of a frame collected so far (R24, R25). -/
def collectedBits (r : Rx) : Nat := 8 * r.byteCount.toNat + r.bitCount.toNat

/-- The carrier time of an interval, in microseconds. -/
def carrierUs : PulseInterval → Nat
  | .mark us => us
  | .space _ => 0

end Sys2Proof.Machine
end

