-- ==== Sys2Proof/Certificates/Slice0/Obligations.lean ====
section
/-! DEFINITION. The statements for the provers. Each docstring names the rule of spec/ it formalises; a
statement that rests on a choice of the model says so and names the log entry. -/

open Sys2Proof Sys2Proof.Machine

/-! ### Encoding (30_encoding.md) -/

/-- Decoding the word of any well-formed instruction gives the instruction back, at every `TICK_BITS` and with
every operand (R76 to R83, R87). -/
def Obligations.DecodeOfEncode : Prop :=
  ∀ (n : Nat) (i : Instr), i.wellFormed n = true → decode n (encode i) = .ok i

/-- A word that decodes is the word of the instruction it decodes to, and that instruction is well formed: no
two words mean the same step (R83, R84, R85). -/
def Obligations.EncodeOfDecode : Prop :=
  ∀ (n : Nat) (w : Word) (i : Instr), decode n w = .ok i → encode i = w ∧ i.wellFormed n = true

/-- Which words are refused, and by which reason, in the order of R83 (R83, R84). -/
def Obligations.DecodeRefusals : Prop :=
  ∀ (n : Nat) (w : Word),
    (decode n w = .error .illegalOpcode ↔
      w.extractLsb' 28 4 = 0 ∨ (7 ≤ (w.extractLsb' 28 4).toNat ∧ (w.extractLsb' 28 4).toNat ≤ 14)) ∧
    (decode n w = .error .reservedBits ↔
      (w.extractLsb' 28 4 = 1 ∧ w.extractLsb' 25 3 ≠ 0) ∨
      ((w.extractLsb' 28 4 = 2 ∨ w.extractLsb' 28 4 = 3 ∨ w.extractLsb' 28 4 = 5 ∨ w.extractLsb' 28 4 = 15) ∧
        w.extractLsb' 0 28 ≠ 0) ∨
      (w.extractLsb' 28 4 = 4 ∧ w.extractLsb' 24 4 ≠ 0) ∨
      (w.extractLsb' 28 4 = 6 ∧ w.extractLsb' 3 25 ≠ 0)) ∧
    (decode n w = .error .elapsedTooWide ↔
      w.extractLsb' 28 4 = 1 ∧ w.extractLsb' 25 3 = 0 ∧ 2 ^ n ≤ (w.extractLsb' 0 24).toNat) ∧
    (decode n w = .error .badView ↔
      w.extractLsb' 28 4 = 6 ∧ w.extractLsb' 3 25 = 0 ∧ w.extractLsb' 0 3 = 7)

/-- Words of every row written out from the formats, and what they decode to at `TICK_BITS = 16` (R76 to R82;
95_test_vectors.md section 2.8). -/
def Obligations.SpecWordsDecode : Prop :=
  decode 16 0x1000FFFF = .ok (.edge .falling 65535) ∧
  decode 16 0x110003E8 = .ok (.edge .rising 1000) ∧
  decode 16 0x20000000 = .ok .poll ∧
  decode 16 0x30000000 = .ok .complete ∧
  decode 16 0x40AA0028 = .ok (.txreq 0xAA 0x0028) ∧
  decode 16 0x50000000 = .ok .txstep ∧
  decode 16 0x60000006 = .ok (.read .txFrameB) ∧
  decode 16 0xF0000000 = .ok .reset

/-- The assembler's worked examples (R87). -/
def Obligations.AssemblerExamples : Prop :=
  assemble Config.default ["edge rise, 1000".toList] = some [0x110003E8] ∧
  assemble Config.default ["txreq 0xAA, 0x0028".toList] = some [0x40AA0028]

/-- `rxframe` is the edge sequence of the line model for the frame's pulse train without its last edge, each
edge served by one POLL, then COMPLETE (R88, R212), at a legal configuration. -/
def Obligations.RxframeIsLineModel : Prop :=
  ∀ (c : Config) (idleUs : Nat) (f : Frame), configLegal c = true →
    pseudoRxframe c (BitVec.ofNat 24 (elapsedCount c idleUs)) f =
      servedByPoll ((lineEdges c idleUs (pulseTrain c f)).take 99) ++ [.complete]

/-! ### The step (00_scope.md R16, 44_capture_dispatch.md R208) -/

/-- The word at the head of the input queue, when it decodes, is the step that is taken: the meaning runs on the
state whose queue has moved past the word, and nothing else is done around it (R75, R83; the queue is the
model's, log entry 1). -/
def Obligations.StepRunsDecodedInstruction : Prop :=
  ∀ (s : State) (w : Word) (ws : List Word) (i : Instr),
    s.stimulus = w :: ws → decode s.cfg.tickBits w = .ok i → step s = exec i { s with stimulus := ws }

/-- A word that does not decode is refused with the decoder's reason and leaves the block unchanged (R16, R83,
R237). That the queue moves past it, and where the reason is kept, is the model's choice (log entries 1 and 2). -/
def Obligations.StepRefusesIllFormedWord : Prop :=
  ∀ (s : State) (w : Word) (ws : List Word) (r : WordRefusal),
    s.stimulus = w :: ws → decode s.cfg.tickBits w = .error r →
      step s = .next { s with stimulus := ws, result := .refused r }

/-- With no step word the block holds its state (R250; log entry 1, the model's choice). -/
def Obligations.StepHoldsStateWithoutWord : Prop :=
  ∀ s : State, s.stimulus = [] → step s = .next s

/-- Every instruction answers a next state in every state, and so does every step: the block has no fault
(R230). That an instruction not enabled and a word not decoded answer a next state too, which R16 calls outcomes
of their own with the state unchanged, is the model's choice (log entry 2). -/
def Obligations.EveryInstructionAnswers : Prop :=
  (∀ (i : Instr) (s : State), ∃ t, exec i s = .next t) ∧ ∀ s : State, ∃ t, step s = .next t

/-- The enabling table: outside its condition a step is `NotEnabled` and leaves everything but the result of
the step as it was; inside it the outcome is another (R208). -/
def Obligations.EnablingTable : Prop :=
  ∀ s : State,
    (s.tx.txActive = true ∨ s.rx.rxState = .commandReceived →
      exec .poll s = .next { s with result := .notEnabled } ∧
      ∀ a c, exec (.txreq a c) s = .next { s with result := .notEnabled }) ∧
    (s.tx.txActive = true ∨ s.rx.rxState ≠ .commandReceived →
      exec .complete s = .next { s with result := .notEnabled }) ∧
    (s.tx.txActive = false → exec .txstep s = .next { s with result := .notEnabled }) ∧
    (s.tx.txActive = false → s.rx.rxState ≠ .commandReceived →
      (∀ t, exec .poll s = .next t → t.result = .completed) ∧
      ∀ a c t, exec (.txreq a c) s = .next t → t.result = .completed) ∧
    (s.tx.txActive = false → s.rx.rxState = .commandReceived →
      ∀ t, exec .complete s = .next t → t.result = .completed) ∧
    (s.tx.txActive = true → ∀ t, exec .txstep s = .next t → t.result = .completed) ∧
    (∀ d e t, exec (.edge d e) s = .next t → t.result = .completed) ∧
    (∀ t, exec .reset s = .next t → t.result = .completed) ∧
    (∀ v t, exec (.read v) s = .next t → ∃ x, t.result = .value x)

/-! ### EDGE (44_capture_dispatch.md) -/

/-- EDGE in its three cases: a disabled receive path drops the edge (R201), an edge of the other polarity is
dropped (R202), any other overwrites the mailbox, toggles the polarity and resets the timer, with an overrun
reported when an event was pending (R203, R204). Everything not named is unchanged (R200). -/
def Obligations.EdgeStep : Prop :=
  ∀ (d : Dir) (e : Ticks) (s : State),
    (s.cap.capEnabled = false →
      exec (.edge d e) s =
        .next { s with trace := s.trace ++ [.edgeDropped .disabled], result := .completed }) ∧
    (s.cap.capEnabled = true → d ≠ s.cap.capPolarity →
      exec (.edge d e) s =
        .next { s with trace := s.trace ++ [.edgeDropped .polarity], result := .completed }) ∧
    (s.cap.capEnabled = true → d = s.cap.capPolarity →
      exec (.edge d e) s =
        .next
          { s with
            mb := { mbPending := true, mbElapsed := e, mbDir := d }
            cap := { s.cap with capPolarity := d.flip }
            trace := s.trace ++ (if s.mb.mbPending then [.overrun, .timerReset] else [.timerReset])
            result := .completed })

/-- A capture that is out of step with the line drops the line's next edge and captures the one after it, after
which it watches for the edge that comes next: at most one edge is lost (R279). -/
def Obligations.OutOfStepLosesOneEdge : Prop :=
  ∀ (d : Dir) (e e' : Ticks) (s : State), s.cap.capEnabled = true → s.cap.capPolarity = d.flip →
    ∃ t u : State,
      execAll [.edge d e] s = .next t ∧ t.mb = s.mb ∧ t.cap = s.cap ∧
      execAll [.edge d e, .edge d.flip e'] s = .next u ∧
      u.mb = ⟨true, e', d.flip⟩ ∧ u.cap = { s.cap with capPolarity := d }

/-- While a transmission is in progress every edge is dropped and changes no field (R173, R182), in every state
that meets the invariant. -/
def Obligations.NoSelfCapture : Prop :=
  ∀ (d : Dir) (e : Ticks) (s : State), Sound s → s.tx.txActive = true →
    exec (.edge d e) s = .next { s with trace := s.trace ++ [.edgeDropped .disabled], result := .completed }

/-! ### POLL (41_receive.md) -/

/-- A POLL with nothing pending writes no field and emits no event (R121). -/
def Obligations.PollIdle : Prop :=
  ∀ s : State, s.tx.txActive = false → s.rx.rxState ≠ .commandReceived → s.mb.mbPending = false →
    exec .poll s = .next { s with result := .completed }

/-- A POLL that takes an event in Reset (R123): only a Rising edge in the TrainingPulse window goes on. -/
def Obligations.PollInReset : Prop :=
  ∀ s : State, s.tx.txActive = false → s.rx.rxState = .reset → s.mb.mbPending = true →
    exec .poll s =
      .next
        (if s.mb.mbDir = .rising ∧ lo s.cfg s.cfg.trainUs ≤ s.mb.mbElapsed.toNat ∧
            s.mb.mbElapsed.toNat ≤ hi s.cfg s.cfg.trainUs
          then polled s { s.rx with rxState := .trainingReceived } []
          else polled s (recoveredRx s) [.anomaly .idle])

/-- A POLL that takes an event in TrainingReceived (R124): only a Falling edge in the SilenceAfterTraining
window goes on. -/
def Obligations.PollInTraining : Prop :=
  ∀ s : State, s.tx.txActive = false → s.rx.rxState = .trainingReceived → s.mb.mbPending = true →
    exec .poll s =
      .next
        (if s.mb.mbDir = .falling ∧ lo s.cfg s.cfg.silenceUs ≤ s.mb.mbElapsed.toNat ∧
            s.mb.mbElapsed.toNat ≤ hi s.cfg s.cfg.silenceUs
          then polled s { s.rx with rxState := .receivingBits } []
          else polled s (recoveredRx s) [.anomaly .silence])

/-- A POLL that takes the Rising end of a bit mark (R104, R125): the upper bound alone is tested unless
`MARK_LOWER_CHECK` is set, and a good mark writes no receive field. -/
def Obligations.PollMark : Prop :=
  ∀ s : State, s.tx.txActive = false → s.rx.rxState = .receivingBits → s.mb.mbPending = true →
    s.mb.mbDir = .rising →
    exec .poll s =
      .next
        (if hi s.cfg s.cfg.shortUs < s.mb.mbElapsed.toNat ∨
            (s.cfg.markLowerCheck = true ∧ s.mb.mbElapsed.toNat < lo s.cfg s.cfg.shortUs)
          then polled s (recoveredRx s) [.anomaly .mark]
          else polled s s.rx [])

/-- A POLL that takes the Falling end of a bit space (R126): a LongSpace appends 1, else a ShortSpace appends
0, else it is an anomaly. -/
def Obligations.PollSpace : Prop :=
  ∀ s : State, s.tx.txActive = false → s.rx.rxState = .receivingBits → s.mb.mbPending = true →
    s.mb.mbDir = .falling →
    exec .poll s =
      .next
        (if lo s.cfg s.cfg.longUs ≤ s.mb.mbElapsed.toNat ∧ s.mb.mbElapsed.toNat ≤ hi s.cfg s.cfg.longUs
          then polled s (appendBit true s.rx) []
          else if lo s.cfg s.cfg.shortUs ≤ s.mb.mbElapsed.toNat ∧
              s.mb.mbElapsed.toNat ≤ hi s.cfg s.cfg.shortUs
            then polled s (appendBit false s.rx) []
            else polled s (recoveredRx s) [.anomaly .space])

/-- `appendBit(b)`: the bit enters at the low end; the eighth bit stores the byte and leaves every other byte
alone; the sixth byte enters CommandReceived (R127). -/
def Obligations.AppendBit : Prop :=
  ∀ (b : Bool) (r : Rx),
    (r.bitCount.toNat < 7 →
      appendBit b r =
        { r with
          curByte := BitVec.ofNat 8 (2 * r.curByte.toNat + b.toNat)
          bitCount := BitVec.ofNat 3 (r.bitCount.toNat + 1) }) ∧
    (r.bitCount.toNat = 7 → r.byteCount.toNat < 6 →
      (appendBit b r).frame.get r.byteCount.toNat = BitVec.ofNat 8 (2 * r.curByte.toNat + b.toNat) ∧
      (∀ j, j ≠ r.byteCount.toNat → (appendBit b r).frame.get j = r.frame.get j) ∧
      (appendBit b r).byteCount.toNat = r.byteCount.toNat + 1 ∧
      (appendBit b r).bitCount = 0 ∧ (appendBit b r).curByte = 0 ∧
      (appendBit b r).rxState = (if r.byteCount.toNat = 5 then .commandReceived else r.rxState) ∧
      (appendBit b r).resetCount = r.resetCount)

/-- Eight appended bits, the first ending in bit 7, store exactly the byte they spell (R52, R127). -/
def Obligations.EightBitsStoreTheirByte : Prop :=
  ∀ (r : Rx) (x : Byte), r.bitCount = 0 → r.curByte = 0 → r.byteCount.toNat < 6 →
    [7, 6, 5, 4, 3, 2, 1, 0].foldl (fun r j => appendBit (x.getLsbD j) r) r =
      { r with
        frame := r.frame.set r.byteCount.toNat x
        byteCount := BitVec.ofNat 3 (r.byteCount.toNat + 1)
        rxState := if r.byteCount.toNat = 5 then .commandReceived else r.rxState }

/-- The diagnostic counter increments with saturation at its configured width (R13, R27, R128). -/
def Obligations.ResetCounterSaturates : Prop :=
  ∀ (k : AnomalyCause) (s : State), s.cfg.resetCountBits ≤ 16 →
    ((anomaly k s).rx.resetCount).toNat = min (s.rx.resetCount.toNat + 1) (2 ^ s.cfg.resetCountBits - 1)

/-- CommandReceived is entered only by the POLL that takes the 48th bit: five bytes and seven bits are held,
and a Falling edge in a space window is taken (R127, R133). -/
def Obligations.CommandReceivedEntry : Prop :=
  ∀ (i : Instr) (s t : State), exec i s = .next t →
    t.rx.rxState = .commandReceived → s.rx.rxState ≠ .commandReceived →
    i = .poll ∧ s.rx.rxState = .receivingBits ∧ s.rx.byteCount = 5 ∧ s.rx.bitCount = 7 ∧
    s.mb.mbPending = true ∧ s.mb.mbDir = .falling ∧
    (inWindow s.cfg s.mb.mbElapsed s.cfg.longUs = true ∨ inWindow s.cfg s.mb.mbElapsed s.cfg.shortUs = true)

/-- While a frame is being collected each step keeps the number of bits or adds one, and it starts from none on
entry to ReceivingBits (R122, R127, R133), in every state that meets the invariant. -/
def Obligations.CollectedBitsCountUp : Prop :=
  ∀ (i : Instr) (s t : State), Sound s → exec i s = .next t →
    t.rx.rxState = .receivingBits ∨ t.rx.rxState = .commandReceived →
    (s.rx.rxState = .trainingReceived ∧ t.rx.rxState = .receivingBits ∧ collectedBits t.rx = 0) ∨
    t.rx = s.rx ∨
    (i = .poll ∧ s.rx.rxState = .receivingBits ∧ collectedBits t.rx = collectedBits s.rx + 1)

/-! ### COMPLETE and the validator (41_receive.md, 42_validator.md) -/

/-- COMPLETE: an accepted frame is handed to the dispatcher and clears the counter, a rejected one is reported
by its cause and keeps it; either way the scratch buffer is zeroed, the state is Reset, and capture is re-armed
(R130, R131, R207). Everything not named is unchanged. In any other state it is `NotEnabled`. -/
def Obligations.CompleteStep : Prop :=
  ∀ s : State,
    (s.tx.txActive = false → s.rx.rxState = .commandReceived →
      exec .complete s =
        .next
          { s with
            rx :=
              { rxState := .reset, frame := ⟨0, 0, 0, 0, 0, 0⟩, curByte := 0, bitCount := 0, byteCount := 0
                resetCount := if (validate s.rx.frame s.cfg.devAddr).isSome then 0 else s.rx.resetCount }
            mb := { s.mb with mbPending := false }
            cap := { s.cap with capPolarity := .falling }
            trace := s.trace ++
              [match validate s.rx.frame s.cfg.devAddr with
                | some c => .cmdDecoded c
                | none => .reject (rejectCause s.rx.frame s.cfg.devAddr), .timerReset]
            result := .completed }) ∧
    (s.tx.txActive = true ∨ s.rx.rxState ≠ .commandReceived →
      exec .complete s = .next { s with result := .notEnabled })

/-- The validator accepts exactly the frames with the configured or the broadcast address and three complement
pairs, and answers the command of bytes 2 and 4 (R150 to R153). -/
def Obligations.ValidateAcceptsExactly : Prop :=
  ∀ (f : Frame) (a : Byte) (c : Command),
    validate f a = some c ↔
      (f.get 0 = a ∨ f.get 0 = 0xFF) ∧
      (∀ j < 3, f.get (2 * j) ^^^ f.get (2 * j + 1) = 0xFF) ∧
      c.toNat = 256 * (f.get 2).toNat + (f.get 4).toNat

/-- The code of a rejected frame's cause is that of the first failing check, in the order address, pair 0, pair
1, pair 2 (R155, R235). -/
def Obligations.RejectCauseIsFirstFailing : Prop :=
  ∀ (f : Frame) (a : Byte), validate f a = none →
    (rejectCode (rejectCause f a) = 1 ↔ f.get 0 ≠ a ∧ f.get 0 ≠ 0xFF) ∧
    (rejectCode (rejectCause f a) = 2 ↔
      (f.get 0 = a ∨ f.get 0 = 0xFF) ∧ f.get 0 ^^^ f.get 1 ≠ 0xFF) ∧
    (rejectCode (rejectCause f a) = 3 ↔
      (f.get 0 = a ∨ f.get 0 = 0xFF) ∧ f.get 0 ^^^ f.get 1 = 0xFF ∧ f.get 2 ^^^ f.get 3 ≠ 0xFF) ∧
    (rejectCode (rejectCause f a) = 4 ↔
      (f.get 0 = a ∨ f.get 0 = 0xFF) ∧ f.get 0 ^^^ f.get 1 = 0xFF ∧ f.get 2 ^^^ f.get 3 = 0xFF ∧
        f.get 4 ^^^ f.get 5 ≠ 0xFF)

/-- A frame built by the encoder validates to its own command exactly when its address is accepted (R150, R171). -/
def Obligations.EncodedFrameValidates : Prop :=
  ∀ (a d : Byte) (c : Command),
    validate (encodeFrame a c) d = if a = d ∨ a = 0xFF then some c else none

/-! ### TXREQ and TXSTEP (43_transmit.md) -/

/-- TXREQ: the frame `a, ~a, hi, ~hi, lo, ~lo` is stored, the transmission starts at interval 0, the receive
path is disabled, and the receive fields are cleared or kept by policy, the counter kept either way (R170 to
R173). Everything not named is unchanged. During a transmission or with a frame waiting it is `NotEnabled`. -/
def Obligations.TxreqStep : Prop :=
  ∀ (a : Byte) (c : Command) (s : State),
    (s.tx.txActive = false → s.rx.rxState ≠ .commandReceived →
      exec (.txreq a c) s =
        .next
          { s with
            rx :=
              match s.cfg.txRxPolicy with
              | .reset =>
                { rxState := .reset, frame := ⟨0, 0, 0, 0, 0, 0⟩, curByte := 0, bitCount := 0, byteCount := 0
                  resetCount := s.rx.resetCount }
              | .preserve => s.rx
            cap := { s.cap with capEnabled := false }
            tx :=
              { s.tx with
                txActive := true
                txIndex := 0
                txFrame :=
                  ⟨a, a ^^^ 0xFF, c.extractLsb' 8 8, c.extractLsb' 8 8 ^^^ 0xFF, c.extractLsb' 0 8,
                    c.extractLsb' 0 8 ^^^ 0xFF⟩ }
            result := .completed }) ∧
    (s.tx.txActive = true ∨ s.rx.rxState = .commandReceived →
      exec (.txreq a c) s = .next { s with result := .notEnabled })

/-- TXSTEP on index 0 to 98 emits that interval and counts; the carrier is off before and after it (R174, R176,
R177). The premise on the carrier is the invariant's clause R37. -/
def Obligations.TxstepInterval : Prop :=
  ∀ s : State, s.tx.txActive = true → s.tx.txIndex.toNat ≤ 98 → s.tx.carrier = false →
    exec .txstep s =
      .next
        { s with
          tx := { s.tx with txIndex := BitVec.ofNat 7 (s.tx.txIndex.toNat + 1) }
          trace := s.trace ++
            [match pulse s.cfg s.tx.txFrame s.tx.txIndex.toNat with
              | .mark us => .mark us
              | .space us => .space us]
          result := .completed }

/-- The last TXSTEP enables the receive path, re-arms capture, ends the transmission and keeps the frame (R174,
R178, R207), with everything not named unchanged; it and RESET are the only exits from a transmission, and both
leave the receive path enabled (R178). -/
def Obligations.TxstepEnd : Prop :=
  (∀ s : State, s.tx.txActive = true → 98 < s.tx.txIndex.toNat →
    exec .txstep s =
      .next
        { s with
          mb := { s.mb with mbPending := false }
          cap := { capPolarity := .falling, capEnabled := true }
          tx := { s.tx with txActive := false, txIndex := 0 }
          trace := s.trace ++ [.timerReset, .txDone]
          result := .completed }) ∧
  (∀ (i : Instr) (s t : State), exec i s = .next t → s.tx.txActive = true → t.tx.txActive = false →
    ((i = .txstep ∧ 98 < s.tx.txIndex.toNat) ∨ i = .reset) ∧ t.cap.capEnabled = true)

/-- The pulse train of a frame, interval by interval (R71, R72, R175). -/
def Obligations.PulseTrainTable : Prop :=
  ∀ (c : Config) (f : Frame),
    (pulseTrain c f).length = 99 ∧
    (pulseTrain c f)[0]? = some (.mark c.trainUs) ∧
    (pulseTrain c f)[1]? = some (.space c.silenceUs) ∧
    (∀ k < 48, (pulseTrain c f)[2 + 2 * k]? = some (.mark c.shortUs) ∧
      (pulseTrain c f)[3 + 2 * k]? =
        some (.space (if (f.get (k / 8)).getLsbD (7 - k % 8) then c.longUs else c.shortUs))) ∧
    (pulseTrain c f)[98]? = some (.mark c.shortUs)

/-- A transmission is one TXREQ and 100 TXSTEP: it emits the frame's pulse train in order, then the timer reset
and the end, and leaves the receive path enabled and re-armed (R72, R170, R174, R178). -/
def Obligations.TransmissionEmitsTrain : Prop :=
  ∀ (a : Byte) (c : Command) (s : State), s.tx.txActive = false → s.rx.rxState ≠ .commandReceived →
    s.tx.carrier = false →
    execAll (transmission a c) s =
      .next
        { s with
          rx := txreqRx s.cfg.txRxPolicy s.rx
          mb := { s.mb with mbPending := false }
          cap := { capPolarity := .falling, capEnabled := true }
          tx := { txActive := false, txIndex := 0, txFrame := encodeFrame a c, carrier := false }
          trace := s.trace ++ (pulseTrain s.cfg (encodeFrame a c)).map intervalEvent ++ [.timerReset, .txDone]
          result := .completed }

/-- The time of a pulse train and of its marks, by the number of 1 bits; an encoded frame has 24 of them, so at
the defaults a transmission lasts 85 000 microseconds with 30 400 of carrier (R181). -/
def Obligations.TransmissionTime : Prop :=
  (∀ (c : Config) (f : Frame),
    ((pulseTrain c f).map intervalUs).sum =
      c.trainUs + c.silenceUs + 49 * c.shortUs + (List.range 48).countP (frameBit f) * c.longUs +
        (48 - (List.range 48).countP (frameBit f)) * c.shortUs ∧
    ((pulseTrain c f).map carrierUs).sum = c.trainUs + 49 * c.shortUs) ∧
  (∀ (a : Byte) (c : Command), (List.range 48).countP (frameBit (encodeFrame a c)) = 24) ∧
  (∀ (a : Byte) (c : Command),
    ((pulseTrain Config.default (encodeFrame a c)).map intervalUs).sum = 85000 ∧
    ((pulseTrain Config.default (encodeFrame a c)).map carrierUs).sum = 30400)

/-! ### READ and RESET (10_state.md, 70_reset_and_hazards.md) -/

/-- READ returns the value of its view, changes no state and emits no event (R56, R82). -/
def Obligations.ReadStep : Prop :=
  ∀ (v : View) (s : State), exec (.read v) s = .next { s with result := .value (viewValue v s) }

/-- The bits of the STATUS view (R42), with the codes of the receive state (R21) and of a direction (R30, R31)
written out. -/
def Obligations.StatusViewBits : Prop :=
  ∀ s : State,
    (viewValue .status s).extractLsb' 0 2 =
      (match s.rx.rxState with
        | .reset => 0
        | .trainingReceived => 1
        | .receivingBits => 2
        | .commandReceived => 3) ∧
    (viewValue .status s).extractLsb' 2 3 = s.rx.bitCount ∧
    (viewValue .status s).extractLsb' 5 3 = s.rx.byteCount ∧
    (viewValue .status s).getLsbD 8 = s.mb.mbPending ∧
    (viewValue .status s).getLsbD 9 = decide (s.mb.mbDir = .rising) ∧
    (viewValue .status s).getLsbD 10 = decide (s.cap.capPolarity = .rising) ∧
    (viewValue .status s).getLsbD 11 = s.cap.capEnabled ∧
    (viewValue .status s).getLsbD 12 = s.tx.txActive ∧
    (viewValue .status s).extractLsb' 13 7 = s.tx.txIndex ∧
    (viewValue .status s).extractLsb' 20 12 = 0

/-- The bits of the six other views (R42). -/
def Obligations.OtherViewBits : Prop :=
  ∀ s : State,
    (viewValue .resetCount s).extractLsb' 0 16 = s.rx.resetCount ∧
    (viewValue .resetCount s).extractLsb' 16 16 = 0 ∧
    (viewValue .mbElapsed s).extractLsb' 0 24 = s.mb.mbElapsed ∧
    (viewValue .mbElapsed s).extractLsb' 24 8 = 0 ∧
    (∀ j < 4, (viewValue .frameA s).extractLsb' (24 - 8 * j) 8 = s.rx.frame.get j) ∧
    (viewValue .frameB s).extractLsb' 24 8 = s.rx.frame.get 4 ∧
    (viewValue .frameB s).extractLsb' 16 8 = s.rx.frame.get 5 ∧
    (viewValue .frameB s).extractLsb' 8 8 = s.rx.curByte ∧
    (viewValue .frameB s).extractLsb' 0 8 = 0 ∧
    (∀ j < 4, (viewValue .txFrameA s).extractLsb' (24 - 8 * j) 8 = s.tx.txFrame.get j) ∧
    (viewValue .txFrameB s).extractLsb' 24 8 = s.tx.txFrame.get 4 ∧
    (viewValue .txFrameB s).extractLsb' 16 8 = s.tx.txFrame.get 5 ∧
    (viewValue .txFrameB s).extractLsb' 0 16 = 0

/-- RESET in every state: every field of the record takes its reset value, the timer is reset, the configuration
stays (R44, R270). The clauses that the words still to come and the events already emitted stay are the model's
choice (log entries 1 and 3). -/
def Obligations.ResetStep : Prop :=
  ∀ s : State,
    exec .reset s =
      .next
        { cfg := s.cfg
          rx := ⟨.reset, ⟨0, 0, 0, 0, 0, 0⟩, 0, 0, 0, 0⟩
          mb := ⟨false, 0, .falling⟩
          cap := ⟨.falling, true⟩
          tx := ⟨false, 0, ⟨0, 0, 0, 0, 0, 0⟩, false⟩
          stimulus := s.stimulus
          trace := s.trace ++ [.timerReset]
          result := .completed }

/-- The reset values of every field of the spec's record, after RESET in any state and at construction (R44,
R271), and the STATUS view they give (the worked example of R82, which the spec derives). That `State.reset` is
construction at the defaults is the model's reading (log entry 4). -/
def Obligations.ResetValues : Prop :=
  construct Config.default = .next State.reset ∧
  ∀ t : State, ((∃ c, construct c = .next t) ∨ ∃ s, exec .reset s = .next t) →
    t.rx = ⟨.reset, ⟨0, 0, 0, 0, 0, 0⟩, 0, 0, 0, 0⟩ ∧
    t.mb = ⟨false, 0, .falling⟩ ∧
    t.cap = ⟨.falling, true⟩ ∧
    t.tx = ⟨false, 0, ⟨0, 0, 0, 0, 0, 0⟩, false⟩ ∧
    viewValue .status t = 0x00000800

/-- A block is constructed, in the state of R44, exactly from a configuration that meets the ranges of R8 and
R9; any other is refused (R9, R271, D33). -/
def Obligations.ConstructionNeedsLegalConfig : Prop :=
  ∀ c : Config,
    (construct c = .next (State.initial c) ↔
      1 ≤ c.tickRateHz ∧ 1 ≤ c.trainUs ∧ 1 ≤ c.silenceUs ∧ 1 ≤ c.shortUs ∧ 1 ≤ c.longUs ∧
      c.marginUs ≤ min (min c.trainUs c.silenceUs) (min c.shortUs c.longUs) ∧
      1 ≤ c.tickBits ∧ c.tickBits ≤ 24 ∧ 1 ≤ c.resetCountBits ∧ c.resetCountBits ≤ 16 ∧
      ∀ k, hi c (nominalUs c k) < 2 ^ c.tickBits) ∧
    (construct c = .next (State.initial c) ∨ construct c = .refused .illegalConfig)

/-! ### The classifier (40_classifier.md) -/

/-- `toTicks` is the truncated quotient, it keeps order, sends 0 to 0, and is the identity at one tick a
microsecond (R100). -/
def Obligations.ToTicksTruncates : Prop :=
  (∀ (c : Config) (us : Nat),
    toTicks c us * 1000000 ≤ us * c.tickRateHz ∧ us * c.tickRateHz < (toTicks c us + 1) * 1000000) ∧
  (∀ (c : Config) (x y : Nat), x ≤ y → toTicks c x ≤ toTicks c y) ∧
  (∀ c : Config, toTicks c 0 = 0) ∧
  (∀ (c : Config) (us : Nat), c.tickRateHz = 1000000 → toTicks c us = us)

/-- The bounds of a window are the ticks of `T - MARGIN_US` and `T + MARGIN_US` (R101), for every nominal duration
not below the margin, as every legal one is; both bounds are accepted, one tick past either is rejected (R102,
R106). -/
def Obligations.WindowBoundaries : Prop :=
  ∀ (c : Config) (e : Ticks) (us : Nat),
    (c.marginUs ≤ us → lo c us = (us - c.marginUs) * c.tickRateHz / 1000000) ∧
    hi c us = (us + c.marginUs) * c.tickRateHz / 1000000 ∧
    (e.toNat = lo c us → inWindow c e us = true) ∧
    (e.toNat = hi c us → inWindow c e us = true) ∧
    (e.toNat = hi c us + 1 → inWindow c e us = false) ∧
    (e.toNat + 1 = lo c us → inWindow c e us = false)

/-- A jitter-free duration passes its own test in every class; when the short unit lies below the LongSpace
window, the two bit spaces are told apart (R107, the part its rules give; log entry 13). -/
def Obligations.NominalDurationsClassify : Prop :=
  ∀ (c : Config), configLegal c = true →
    (∀ k, classify c k (BitVec.ofNat 24 (toTicks c (nominalUs c k))) = true) ∧
    (toTicks c c.shortUs < lo c c.longUs →
      classify c .longSpace (BitVec.ofNat 24 (toTicks c c.shortUs)) = false)

/-- The line model's count always fits `TICK_BITS` bits; it is `toTicks` when that fits, and past the largest
count it is that count at `saturate` and the remainder modulo `2^TICK_BITS` at `wrap` (R212, R244). -/
def Obligations.ElapsedCountFits : Prop :=
  ∀ (c : Config) (us : Nat),
    elapsedCount c us < 2 ^ c.tickBits ∧
    (toTicks c us ≤ 2 ^ c.tickBits - 1 → elapsedCount c us = toTicks c us) ∧
    (2 ^ c.tickBits - 1 < toTicks c us → c.timerOverflow = .saturate → elapsedCount c us = 2 ^ c.tickBits - 1) ∧
    (2 ^ c.tickBits - 1 < toTicks c us → c.timerOverflow = .wrap →
      elapsedCount c us = toTicks c us % 2 ^ c.tickBits)

/-! ### The whole machine -/

/-- Every step keeps the invariant of the record: empty scratch outside a frame (R26), counters within their
ranges and widths (R25, R27, R29, R35), the alternation of R214, the receive path disabled exactly while
transmitting (R32, R173, R178), the carrier off between steps (R37), a legal configuration (R9). -/
def Obligations.StepKeepsInvariant : Prop :=
  ∀ s t : State, Sound s → step s = .next t → Sound t

/-- The invariant holds at reset, and at construction from any legal configuration (R26, R44, R271). -/
def Obligations.ResetMeetsInvariant : Prop :=
  Sound State.reset ∧ ∀ c : Config, configLegal c = true → Sound (State.initial c)

/-- No step writes the configuration (R10, R277). -/
def Obligations.ConfigurationFixed : Prop :=
  ∀ s t : State, step s = .next t → t.cfg = s.cfg

/-- Who writes which field (R27, R32, R38): a field that a step changes is one the step's rule lets it write. -/
def Obligations.WritersPerField : Prop :=
  ∀ (i : Instr) (s t : State), exec i s = .next t →
    t.cfg = s.cfg ∧ t.stimulus = s.stimulus ∧
    ((∃ d e, i = .edge d e) → t.rx = s.rx ∧ t.tx = s.tx ∧ t.cap.capEnabled = s.cap.capEnabled) ∧
    ((∃ v, i = .read v) → t.rx = s.rx ∧ t.mb = s.mb ∧ t.cap = s.cap ∧ t.tx = s.tx ∧ t.trace = s.trace) ∧
    (i = .txstep → t.rx = s.rx) ∧
    (i = .poll → t.tx = s.tx ∧ t.cap = s.cap) ∧
    (i = .complete → t.tx = s.tx) ∧
    ((∃ a c, i = .txreq a c) → t.mb = s.mb ∧ t.cap.capPolarity = s.cap.capPolarity) ∧
    (t.cap.capEnabled ≠ s.cap.capEnabled → (∃ a c, i = .txreq a c) ∨ i = .txstep ∨ i = .reset) ∧
    (t.rx.resetCount ≠ s.rx.resetCount → i = .poll ∨ i = .complete ∨ i = .reset) ∧
    (t.tx.txFrame ≠ s.tx.txFrame → (∃ a c, i = .txreq a c) ∨ i = .reset) ∧
    (t.mb.mbElapsed ≠ s.mb.mbElapsed ∨ t.mb.mbDir ≠ s.mb.mbDir → (∃ d e, i = .edge d e) ∨ i = .reset) ∧
    (t.mb.mbPending = true → s.mb.mbPending = false → ∃ d e, i = .edge d e)

/-- Only COMPLETE hands a command to the dispatcher, at most one, in CommandReceived, and it is the command the
validator answers for the received frame (R130, R132). -/
def Obligations.OnlyCompleteDispatches : Prop :=
  ∀ (i : Instr) (s t : State), exec i s = .next t →
    decodedCommands (newEvents s t) = [] ∨
    (i = .complete ∧ s.tx.txActive = false ∧ s.rx.rxState = .commandReceived ∧
      ∃ c, validate s.rx.frame s.cfg.devAddr = some c ∧ decodedCommands (newEvents s t) = [c])

/-- The output trace only grows: a step appends to it what it emits (R15). That it lives in the state and that
RESET does not empty it is the model's choice (log entry 3). -/
def Obligations.TraceOnlyGrows : Prop :=
  ∀ s t : State, step s = .next t → ∃ es, t.trace = s.trace ++ es

/-- The timer is reset by a captured edge, by a COMPLETE, by the last TXSTEP and by RESET, and by nothing else
(R207, R244). -/
def Obligations.TimerResetExactlyWhen : Prop :=
  ∀ (i : Instr) (s t : State), exec i s = .next t →
    (Event.timerReset ∈ newEvents s t ↔
      (∃ d e, i = .edge d e ∧ s.cap.capEnabled = true ∧ d = s.cap.capPolarity) ∨
      (i = .complete ∧ s.tx.txActive = false ∧ s.rx.rxState = .commandReceived) ∨
      (i = .txstep ∧ s.tx.txActive = true ∧ 98 < s.tx.txIndex.toNat) ∨
      i = .reset)

/-- What the mailbox holds while nothing is pending has no effect but on what READ returns: two states that
differ only there go on alike (R29, R30, R43). -/
def Obligations.StaleMailboxUnread : Prop :=
  ∀ (i : Instr) (s t : State) (e : Ticks) (d : Dir), s.mb.mbPending = false → exec i s = .next t →
    ∃ t', exec i { s with mb := ⟨false, e, d⟩ } = .next t' ∧
      t'.cfg = t.cfg ∧ t'.rx = t.rx ∧ t'.cap = t.cap ∧ t'.tx = t.tx ∧ t'.trace = t.trace ∧
      t'.mb.mbPending = t.mb.mbPending ∧ (t.mb.mbPending = true → t'.mb = t.mb) ∧
      ((∀ v, i ≠ .read v) → t'.result = t.result)

/-- The diagnostic counter alters no control flow: two states that differ only in it go on alike but for the
counter itself and what READ returns (R27, R248). -/
def Obligations.ResetCountUnread : Prop :=
  ∀ (i : Instr) (s t : State) (n : BitVec 16), exec i s = .next t →
    ∃ t', exec i { s with rx := { s.rx with resetCount := n } } = .next t' ∧
      { t'.rx with resetCount := 0 } = { t.rx with resetCount := 0 } ∧
      t'.cfg = t.cfg ∧ t'.mb = t.mb ∧ t'.cap = t.cap ∧ t'.tx = t.tx ∧ t'.trace = t.trace ∧
      ((∀ v, i ≠ .read v) → t'.result = t.result)

/-- The order of foreground and interrupt is the environment's: after an overrun a Rising edge is pending in
TrainingReceived, which R124 and R214 call unreachable (log entry 12: the step rules R200 and R204 are followed). -/
def Obligations.OverrunReachesRisingInTraining : Prop :=
  ∃ t : State,
    Host.Core.run Sys2Proof.core 6
      (queued State.reset
        [.edge .falling 30000, .poll, .edge .rising 1000, .poll, .edge .falling 600, .edge .rising 600]) = .next t ∧
    t.rx.rxState = .trainingReceived ∧ t.mb.mbPending = true ∧ t.mb.mbDir = .rising

/-- Every turn of the foreground loop can be taken: from a state with no transmission in progress its last step
takes effect, it ends with none in progress, and a turn with a frame waiting ends in Reset (R208, R213). -/
def Obligations.ForegroundTurnCompletes : Prop :=
  ∀ (s : State) (request : Option (Byte × Command)), s.tx.txActive = false → s.tx.carrier = false →
    ∃ t : State, execAll (foregroundTurn s request) s = .next t ∧ t.result = .completed ∧
      t.tx.txActive = false ∧ t.tx.carrier = false ∧
      (s.rx.rxState = .commandReceived → t.rx.rxState = .reset)

/-- The line model of any waveform, an idle gap and any marks and spaces in any order, with the timer started again
by every `TimerReset`, delivers the edges `lineEdges` names when the capture is in step with the idle line, and the
line ends idle, high (R212). That steps take no time in it is the model's choice (log entry 15). -/
def Obligations.LineModelCountsIntervals : Prop :=
  ∀ (s : State) (idleUs : Nat) (train : List PulseInterval),
    s.cap.capEnabled = true → s.cap.capPolarity = .falling →
    ∃ (t : State) (l : Line),
      execAll (servedByPoll (lineEdges s.cfg idleUs train)) s = .next t ∧
      runLine (waveformActions idleUs train) ⟨.high, 0⟩ s = .next (l, t) ∧ l.level = .high

/-- Round trip: the pulse train of an encoded command, received without jitter after any idle gap by a block that
accepts its address and separates the bit spaces, each edge served before the next, is decoded exactly once, to
that command, and the block ends in Reset with its counter at 0, whether the final edge comes before COMPLETE or
after it (R183, R212). The transmitter's configuration `ct` shares the timing constants only. That the steps are
delivered by the queue, and that they take no time in the line model, is the model's choice (log entries 1 and
15). -/
def Obligations.RoundTrip : Prop :=
  ∀ (ct : Config) (s : State) (a : Byte) (c : Command) (idleUs : Nat) (finalEdgeFirst : Bool),
    Sound s → s.rx.rxState = .reset → s.mb.mbPending = false → s.cap.capEnabled = true →
    s.cap.capPolarity = .falling → s.tx.txActive = false →
    (a = s.cfg.devAddr ∨ a = 0xFF) →
    toTicks s.cfg s.cfg.shortUs < lo s.cfg s.cfg.longUs →
    ct.trainUs = s.cfg.trainUs → ct.silenceUs = s.cfg.silenceUs →
    ct.shortUs = s.cfg.shortUs → ct.longUs = s.cfg.longUs →
    ∃ t : State,
      Host.Core.run Sys2Proof.core 200
        (queued s (frameReception s.cfg idleUs (pulseTrain ct (encodeFrame a c)) finalEdgeFirst)) = .next t ∧
      decodedCommands (newEvents s t) = [c] ∧ t.rx.rxState = .reset ∧ t.rx.resetCount = 0 ∧ t.stimulus = []

/-- The edges of a waveform when every edge is captured (R212). Those of a frame's pulse train are the Falling end of
the idle gap and, for each of the 99 intervals, the edge that ends it, Rising for a mark and Falling for a space,
100 in all. In any waveform two marks or two spaces one after the other have no edge between them, a space right after
the idle gap lengthens the gap, and a last space brings no edge: only a change of level is an edge. -/
def Obligations.EdgesAreLevelChanges : Prop :=
  (∀ (c ct : Config) (idleUs : Nat) (f : Frame),
    lineEdges c idleUs (pulseTrain ct f) =
      .edge .falling (BitVec.ofNat 24 (elapsedCount c idleUs)) ::
        (pulseTrain ct f).map (fun iv =>
          match iv with
          | .mark us => .edge .rising (BitVec.ofNat 24 (elapsedCount c us))
          | .space us => .edge .falling (BitVec.ofNat 24 (elapsedCount c us))) ∧
    (lineEdges c idleUs (pulseTrain ct f)).length = 100) ∧
  (∀ (c : Config) (idleUs us us' : Nat) (before after : List PulseInterval),
    lineEdges c idleUs (before ++ .mark us :: .mark us' :: after) =
      lineEdges c idleUs (before ++ .mark (us + us') :: after) ∧
    lineEdges c idleUs (before ++ .space us :: .space us' :: after) =
      lineEdges c idleUs (before ++ .space (us + us') :: after) ∧
    lineEdges c idleUs (.space us :: after) = lineEdges c (idleUs + us) after ∧
    lineEdges c idleUs (before ++ [.space us]) = lineEdges c idleUs before)
end

