-- ==== Sys2Proof/Laws/Classifier.lean ====
section
/-! SUPPORT. The classifier in arithmetic: order of the conversion, and the windows as inequalities. -/

namespace Sys2Proof.Machine

/-- More microseconds are never fewer ticks (R100). -/
theorem toTicks_le_toTicks (c : Config) {x y : Nat} (h : x ≤ y) : toTicks c x ≤ toTicks c y :=
  Nat.div_le_div_right (Nat.mul_le_mul_right _ h)

/-- A lower bound is never above its upper bound. -/
theorem lo_le_hi (c : Config) (us : Nat) : lo c us ≤ hi c us := toTicks_le_toTicks c (by omega)

/-- The window test as two inequalities (R102). -/
theorem inWindow_iff (c : Config) (e : Ticks) (us : Nat) :
    inWindow c e us = true ↔ lo c us ≤ e.toNat ∧ e.toNat ≤ hi c us := by
  simp [inWindow]

/-- The bit-mark test as inequalities (R104). -/
theorem classify_shortMark_iff (c : Config) (e : Ticks) :
    classify c .shortMark e = true ↔
      e.toNat ≤ hi c c.shortUs ∧ (c.markLowerCheck = true → lo c c.shortUs ≤ e.toNat) := by
  cases hm : c.markLowerCheck <;> simp [classify, hm]

/-- A legal configuration, range by range (R8, R9). -/
theorem configLegal_iff (c : Config) :
    configLegal c = true ↔
      1 ≤ c.tickRateHz ∧ (1 ≤ c.trainUs ∧ 1 ≤ c.silenceUs ∧ 1 ≤ c.shortUs ∧ 1 ≤ c.longUs) ∧
      c.marginUs ≤ min (min c.trainUs c.silenceUs) (min c.shortUs c.longUs) ∧
      (1 ≤ c.tickBits ∧ c.tickBits ≤ 24) ∧ (1 ≤ c.resetCountBits ∧ c.resetCountBits ≤ 16) ∧
      hi c c.trainUs < 2 ^ c.tickBits ∧ hi c c.silenceUs < 2 ^ c.tickBits ∧
      hi c c.shortUs < 2 ^ c.tickBits ∧ hi c c.longUs < 2 ^ c.tickBits := by
  simp only [configLegal, Bool.and_eq_true, decide_eq_true_eq, and_assoc]

/-- At a legal configuration every nominal duration is a count of `TICK_BITS` bits, at most 24 (R9). -/
theorem nominal_lt (c : Config) (h : configLegal c = true) (k : DurationClass) :
    toTicks c (nominalUs c k) < 2 ^ c.tickBits ∧ c.tickBits ≤ 24 := by
  obtain ⟨-, -, -, ⟨-, h24⟩, -, ht, hs, hm, hl⟩ := (configLegal_iff c).1 h
  refine ⟨?_, h24⟩
  have hle : toTicks c (nominalUs c k) ≤ hi c (nominalUs c k) := toTicks_le_toTicks c (by omega)
  cases k <;> simp only [nominalUs] at * <;> omega

end Sys2Proof.Machine
end

