-- ==== Sys2Proof/Laws/Operands.lean ====
section
/-! SUPPORT. The operand forms: each code and its inverse, and the two bytes of a logical command. -/

namespace Sys2Proof

@[simp] theorem dir_flip_flip (d : Dir) : d.flip.flip = d := by cases d <;> rfl

theorem dir_flip_ne (d : Dir) : d.flip ≠ d := by cases d <;> decide

@[simp] theorem dir_ofBit_bit (d : Dir) : Dir.ofBit d.bit = d := by cases d <;> rfl

@[simp] theorem dir_bit_ofBit (b : Bool) : (Dir.ofBit b).bit = b := by cases b <;> rfl

@[simp] theorem view_ofIndex_index (v : View) : View.ofIndex v.index = some v := by cases v <;> decide

/-- A number names the view it is the number of. -/
theorem view_index_of_ofIndex {n : BitVec 3} {v : View} (h : View.ofIndex n = some v) : v.index = n := by
  revert n v
  decide

/-- Only the reserved number 7 names no view (R82). -/
theorem view_ofIndex_eq_none (n : BitVec 3) : View.ofIndex n = none ↔ n = 7 := by
  revert n
  decide

@[simp] theorem command_hi_ofBytes (hi lo : Byte) : Command.hi (Command.ofBytes hi lo) = hi := by
  simp only [Command.hi, Command.ofBytes]
  ext i h
  have h8 : i < 8 := h
  have : i < 16 := by omega
  have : 8 + i < 16 := by omega
  simp [BitVec.getLsbD_eq_getElem, *]

@[simp] theorem command_lo_ofBytes (hi lo : Byte) : Command.lo (Command.ofBytes hi lo) = lo := by
  simp only [Command.lo, Command.ofBytes]
  ext i h
  have h8 : i < 8 := h
  have : i < 16 := by omega
  simp [BitVec.getLsbD_eq_getElem, *]

@[simp] theorem command_ofBytes_hi_lo (c : Command) : Command.ofBytes (Command.hi c) (Command.lo c) = c := by
  simp only [Command.hi, Command.lo, Command.ofBytes]
  ext i h
  by_cases h8 : i < 8
  · simp [BitVec.getLsbD_eq_getElem, h8, h]
  · have e : 8 + (i - 8) = i := by omega
    have : i - 8 < 8 := by omega
    simp [BitVec.getLsbD_eq_getElem, h8, e, this, h]

end Sys2Proof
end

