-- ==== Sys2Proof/Laws/Encoding.lean ====
section
/-! SUPPORT. The encodings and the decoder's fields as arithmetic on numbers (spec/30_encoding.md R75, R87). -/

namespace Sys2Proof

/-- A concatenation as a number (R13). -/
theorem append_toNat {n m : Nat} (x : BitVec n) (y : BitVec m) : (x ++ y).toNat = x.toNat * 2 ^ m + y.toNat := by
  rw [BitVec.toNat_append, ← Nat.shiftLeft_add_eq_or_of_lt y.isLt, Nat.shiftLeft_eq]

/-- A field `v[start + len - 1 : start]` as a number (R12). -/
theorem field_toNat (w : Word) (start len : Nat) :
    (w.extractLsb' start len).toNat = w.toNat / 2 ^ start % 2 ^ len := by
  simp [BitVec.extractLsb'_toNat, Nat.shiftRight_eq_div_pow]

/-- The word of an EDGE: `0x10000000 | (dir << 24) | n` (R87). -/
theorem encode_edge_toNat (d : Dir) (e : Ticks) :
    (encode (.edge d e)).toNat = 0x10000000 + d.bit.toNat * 2 ^ 24 + e.toNat := by
  have h : encode (.edge d e) = ((0x1#4 ++ 0#3) ++ BitVec.ofBool d.bit) ++ e := rfl
  rw [h, append_toNat, append_toNat]
  cases d <;> rfl

/-- The word of a TXREQ: `0x40000000 | (addr << 16) | cmd` (R87). -/
theorem encode_txreq_toNat (a : Byte) (c : Command) :
    (encode (.txreq a c)).toNat = 0x40000000 + a.toNat * 2 ^ 16 + c.toNat := by
  have h : encode (.txreq a c) = ((0x4#4 ++ 0#4) ++ a) ++ c := rfl
  rw [h, append_toNat, append_toNat]
  have : (0x4#4 ++ 0#4).toNat = 0x40 := rfl
  rw [this]
  omega

/-- The word of a READ: `0x60000000 | view` (R87). -/
theorem encode_read_toNat (v : View) : (encode (.read v)).toNat = 0x60000000 + v.index.toNat := by
  cases v <;> rfl

end Sys2Proof
end

