-- ==== Sys2Proof/Laws/State.lean ====
section
/-! SUPPORT. One lemma per field per update of `State`, so that no later proof unfolds a record update. -/

namespace Sys2Proof.Machine

section withRx
variable (s : State) (r : Rx)

@[simp] theorem State.withRx_cfg : (s.withRx r).cfg = s.cfg := rfl
@[simp] theorem State.withRx_rx : (s.withRx r).rx = r := rfl
@[simp] theorem State.withRx_mb : (s.withRx r).mb = s.mb := rfl
@[simp] theorem State.withRx_cap : (s.withRx r).cap = s.cap := rfl
@[simp] theorem State.withRx_tx : (s.withRx r).tx = s.tx := rfl
@[simp] theorem State.withRx_stimulus : (s.withRx r).stimulus = s.stimulus := rfl
@[simp] theorem State.withRx_trace : (s.withRx r).trace = s.trace := rfl
@[simp] theorem State.withRx_result : (s.withRx r).result = s.result := rfl

end withRx

section withMb
variable (s : State) (m : Mailbox)

@[simp] theorem State.withMb_cfg : (s.withMb m).cfg = s.cfg := rfl
@[simp] theorem State.withMb_rx : (s.withMb m).rx = s.rx := rfl
@[simp] theorem State.withMb_mb : (s.withMb m).mb = m := rfl
@[simp] theorem State.withMb_cap : (s.withMb m).cap = s.cap := rfl
@[simp] theorem State.withMb_tx : (s.withMb m).tx = s.tx := rfl
@[simp] theorem State.withMb_stimulus : (s.withMb m).stimulus = s.stimulus := rfl
@[simp] theorem State.withMb_trace : (s.withMb m).trace = s.trace := rfl
@[simp] theorem State.withMb_result : (s.withMb m).result = s.result := rfl

end withMb

section withCap
variable (s : State) (c : Capture)

@[simp] theorem State.withCap_cfg : (s.withCap c).cfg = s.cfg := rfl
@[simp] theorem State.withCap_rx : (s.withCap c).rx = s.rx := rfl
@[simp] theorem State.withCap_mb : (s.withCap c).mb = s.mb := rfl
@[simp] theorem State.withCap_cap : (s.withCap c).cap = c := rfl
@[simp] theorem State.withCap_tx : (s.withCap c).tx = s.tx := rfl
@[simp] theorem State.withCap_stimulus : (s.withCap c).stimulus = s.stimulus := rfl
@[simp] theorem State.withCap_trace : (s.withCap c).trace = s.trace := rfl
@[simp] theorem State.withCap_result : (s.withCap c).result = s.result := rfl

end withCap

section withTx
variable (s : State) (x : Tx)

@[simp] theorem State.withTx_cfg : (s.withTx x).cfg = s.cfg := rfl
@[simp] theorem State.withTx_rx : (s.withTx x).rx = s.rx := rfl
@[simp] theorem State.withTx_mb : (s.withTx x).mb = s.mb := rfl
@[simp] theorem State.withTx_cap : (s.withTx x).cap = s.cap := rfl
@[simp] theorem State.withTx_tx : (s.withTx x).tx = x := rfl
@[simp] theorem State.withTx_stimulus : (s.withTx x).stimulus = s.stimulus := rfl
@[simp] theorem State.withTx_trace : (s.withTx x).trace = s.trace := rfl
@[simp] theorem State.withTx_result : (s.withTx x).result = s.result := rfl

end withTx

section withStimulus
variable (s : State) (ws : List Word)

@[simp] theorem State.withStimulus_cfg : (s.withStimulus ws).cfg = s.cfg := rfl
@[simp] theorem State.withStimulus_rx : (s.withStimulus ws).rx = s.rx := rfl
@[simp] theorem State.withStimulus_mb : (s.withStimulus ws).mb = s.mb := rfl
@[simp] theorem State.withStimulus_cap : (s.withStimulus ws).cap = s.cap := rfl
@[simp] theorem State.withStimulus_tx : (s.withStimulus ws).tx = s.tx := rfl
@[simp] theorem State.withStimulus_stimulus : (s.withStimulus ws).stimulus = ws := rfl
@[simp] theorem State.withStimulus_trace : (s.withStimulus ws).trace = s.trace := rfl
@[simp] theorem State.withStimulus_result : (s.withStimulus ws).result = s.result := rfl

end withStimulus

section withResult
variable (s : State) (r : Result)

@[simp] theorem State.withResult_cfg : (s.withResult r).cfg = s.cfg := rfl
@[simp] theorem State.withResult_rx : (s.withResult r).rx = s.rx := rfl
@[simp] theorem State.withResult_mb : (s.withResult r).mb = s.mb := rfl
@[simp] theorem State.withResult_cap : (s.withResult r).cap = s.cap := rfl
@[simp] theorem State.withResult_tx : (s.withResult r).tx = s.tx := rfl
@[simp] theorem State.withResult_stimulus : (s.withResult r).stimulus = s.stimulus := rfl
@[simp] theorem State.withResult_trace : (s.withResult r).trace = s.trace := rfl
@[simp] theorem State.withResult_result : (s.withResult r).result = r := rfl

end withResult

section emit
variable (s : State) (e : Event)

@[simp] theorem State.emit_cfg : (s.emit e).cfg = s.cfg := rfl
@[simp] theorem State.emit_rx : (s.emit e).rx = s.rx := rfl
@[simp] theorem State.emit_mb : (s.emit e).mb = s.mb := rfl
@[simp] theorem State.emit_cap : (s.emit e).cap = s.cap := rfl
@[simp] theorem State.emit_tx : (s.emit e).tx = s.tx := rfl
@[simp] theorem State.emit_stimulus : (s.emit e).stimulus = s.stimulus := rfl
@[simp] theorem State.emit_trace : (s.emit e).trace = s.trace ++ [e] := rfl
@[simp] theorem State.emit_result : (s.emit e).result = s.result := rfl

end emit

@[simp] theorem State.initial_cfg (c : Config) : (State.initial c).cfg = c := rfl
@[simp] theorem State.initial_rx (c : Config) : (State.initial c).rx = Rx.reset := rfl
@[simp] theorem State.initial_mb (c : Config) : (State.initial c).mb = Mailbox.reset := rfl
@[simp] theorem State.initial_cap (c : Config) : (State.initial c).cap = Capture.reset := rfl
@[simp] theorem State.initial_tx (c : Config) : (State.initial c).tx = Tx.reset := rfl
@[simp] theorem State.initial_stimulus (c : Config) : (State.initial c).stimulus = [] := rfl
@[simp] theorem State.initial_trace (c : Config) : (State.initial c).trace = [] := rfl
@[simp] theorem State.initial_result (c : Config) : (State.initial c).result = .none := rfl

end Sys2Proof.Machine
end

