-- ==== Sys2Proof/Laws/Ops.lean ====
section
/-! SUPPORT. What each shared operation does, said once: the frame buffers, the receive procedures, the
mailbox procedures and the capture. Later proofs cite these and unfold none of them. -/

namespace Sys2Proof.Machine

section FrameBuffers

/-- Reading the byte just written gives it (R127). -/
theorem frame_get_set_same (f : Frame) {i : Nat} (v : Byte) (h : i < 6) : (f.set i v).get i = v := by
  interval_cases i <;> rfl

/-- Writing one byte leaves every other byte alone. -/
theorem frame_get_set_other (f : Frame) {i j : Nat} (v : Byte) (h : i ≠ j) : (f.set i v).get j = f.get j := by
  rcases i with _ | _ | _ | _ | _ | _ | i <;> rcases j with _ | _ | _ | _ | _ | _ | j <;>
    first | rfl | exact absurd rfl h

/-- A frame is its six bytes. -/
theorem frame_eq_of_get {f g : Frame} (h : ∀ i < 6, f.get i = g.get i) : f = g := by
  cases f
  cases g
  have h0 := h 0 (by decide)
  have h1 := h 1 (by decide)
  have h2 := h 2 (by decide)
  have h3 := h 3 (by decide)
  have h4 := h 4 (by decide)
  have h5 := h 5 (by decide)
  simp only [Frame.get] at h0 h1 h2 h3 h4 h5
  subst h0 h1 h2 h3 h4 h5
  rfl

end FrameBuffers

section Receive
variable (r : Rx)

@[simp] theorem clearRx_rxState : (clearRx r).rxState = .reset := rfl
@[simp] theorem clearRx_frame : (clearRx r).frame = Frame.zero := rfl
@[simp] theorem clearRx_curByte : (clearRx r).curByte = 0 := rfl
@[simp] theorem clearRx_bitCount : (clearRx r).bitCount = 0 := rfl
@[simp] theorem clearRx_byteCount : (clearRx r).byteCount = 0 := rfl
@[simp] theorem clearRx_resetCount : (clearRx r).resetCount = r.resetCount := rfl

/-- The saturated counter stays below its width (R13, R27). -/
theorem satInc_lt (bits : Nat) (v : BitVec 16) : (satInc bits v).toNat < 2 ^ bits := by
  have hp : 0 < 2 ^ bits := Nat.two_pow_pos bits
  simp only [satInc, BitVec.toNat_ofNat]
  exact lt_of_le_of_lt (Nat.mod_le _ _) (by omega)

/-- All a bit that completes no byte does (R127). -/
theorem appendBit_within (b : Bool) (h : r.bitCount.toNat + 1 ≠ 8) :
    appendBit b r =
      { r with
        curByte := r.curByte <<< 1 ||| (BitVec.ofBool b).setWidth 8
        bitCount := r.bitCount + 1 } := by
  simp [appendBit, h]

/-- All a bit that completes a byte does (R127). -/
theorem appendBit_last (b : Bool) (h : r.bitCount.toNat + 1 = 8) :
    appendBit b r =
      { rxState := if r.byteCount.toNat + 1 = 6 then .commandReceived else r.rxState
        frame := r.frame.set r.byteCount.toNat (r.curByte <<< 1 ||| (BitVec.ofBool b).setWidth 8)
        curByte := 0
        bitCount := 0
        byteCount := r.byteCount + 1
        resetCount := r.resetCount } := by
  simp [appendBit, h]

/-- No appended bit touches the diagnostic counter (R27). -/
@[simp] theorem appendBit_resetCount (b : Bool) : (appendBit b r).resetCount = r.resetCount := by
  simp only [appendBit]
  split <;> rfl

end Receive

section Procedures
variable (s : State)

@[simp] theorem anomaly_cfg (k : AnomalyCause) : (anomaly k s).cfg = s.cfg := rfl
@[simp] theorem anomaly_mb (k : AnomalyCause) : (anomaly k s).mb = s.mb := rfl
@[simp] theorem anomaly_cap (k : AnomalyCause) : (anomaly k s).cap = s.cap := rfl
@[simp] theorem anomaly_tx (k : AnomalyCause) : (anomaly k s).tx = s.tx := rfl
@[simp] theorem anomaly_stimulus (k : AnomalyCause) : (anomaly k s).stimulus = s.stimulus := rfl
@[simp] theorem anomaly_trace (k : AnomalyCause) : (anomaly k s).trace = s.trace ++ [.anomaly k] := rfl
@[simp] theorem anomaly_rx (k : AnomalyCause) :
    (anomaly k s).rx = { clearRx s.rx with resetCount := satInc s.cfg.resetCountBits s.rx.resetCount } := rfl

@[simp] theorem take_cfg : (take s).cfg = s.cfg := rfl
@[simp] theorem take_rx : (take s).rx = s.rx := rfl
@[simp] theorem take_mb : (take s).mb = { s.mb with mbPending := false } := rfl
@[simp] theorem take_cap : (take s).cap = s.cap := rfl
@[simp] theorem take_tx : (take s).tx = s.tx := rfl
@[simp] theorem take_stimulus : (take s).stimulus = s.stimulus := rfl
@[simp] theorem take_trace : (take s).trace = s.trace := rfl

@[simp] theorem rearm_cfg : (rearm s).cfg = s.cfg := rfl
@[simp] theorem rearm_rx : (rearm s).rx = s.rx := rfl
@[simp] theorem rearm_mb : (rearm s).mb = { s.mb with mbPending := false } := rfl
@[simp] theorem rearm_cap : (rearm s).cap = { s.cap with capPolarity := .falling } := rfl
@[simp] theorem rearm_tx : (rearm s).tx = s.tx := rfl
@[simp] theorem rearm_stimulus : (rearm s).stimulus = s.stimulus := rfl
@[simp] theorem rearm_trace : (rearm s).trace = s.trace ++ [.timerReset] := rfl

end Procedures

section CaptureEdge
variable (d : Dir) (e : Ticks) (s : State)

@[simp] theorem captureEdge_cfg : (captureEdge d e s).cfg = s.cfg := by
  simp only [captureEdge]; split <;> rfl
@[simp] theorem captureEdge_rx : (captureEdge d e s).rx = s.rx := by
  simp only [captureEdge]; split <;> rfl
@[simp] theorem captureEdge_mb : (captureEdge d e s).mb = ⟨true, e, d⟩ := rfl
@[simp] theorem captureEdge_cap :
    (captureEdge d e s).cap = { s.cap with capPolarity := s.cap.capPolarity.flip } := by
  simp only [captureEdge]; split <;> rfl
@[simp] theorem captureEdge_tx : (captureEdge d e s).tx = s.tx := by
  simp only [captureEdge]; split <;> rfl
@[simp] theorem captureEdge_stimulus : (captureEdge d e s).stimulus = s.stimulus := by
  simp only [captureEdge]; split <;> rfl

/-- The events of a capture: an overrun first when an event was pending (R200, R204). -/
theorem captureEdge_trace :
    (captureEdge d e s).trace = s.trace ++ ((if s.mb.mbPending then [.overrun] else []) ++ [.timerReset]) := by
  simp only [captureEdge]; split <;> simp

end CaptureEdge

section Intervals
variable (s : State)

@[simp] theorem emitInterval_cfg (iv : PulseInterval) : (emitInterval iv s).cfg = s.cfg := by cases iv <;> rfl
@[simp] theorem emitInterval_rx (iv : PulseInterval) : (emitInterval iv s).rx = s.rx := by cases iv <;> rfl
@[simp] theorem emitInterval_mb (iv : PulseInterval) : (emitInterval iv s).mb = s.mb := by cases iv <;> rfl
@[simp] theorem emitInterval_cap (iv : PulseInterval) : (emitInterval iv s).cap = s.cap := by cases iv <;> rfl
@[simp] theorem emitInterval_stimulus (iv : PulseInterval) : (emitInterval iv s).stimulus = s.stimulus := by
  cases iv <;> rfl
@[simp] theorem emitInterval_trace (iv : PulseInterval) :
    (emitInterval iv s).trace = s.trace ++ [intervalEvent iv] := by cases iv <;> rfl

/-- An interval leaves the transmit fields alone when the carrier is off before it (R37, R176, R177). -/
theorem emitInterval_tx (iv : PulseInterval) (h : s.tx.carrier = false) : (emitInterval iv s).tx = s.tx := by
  cases iv with
  | mark us =>
    simp only [emitInterval, carrierStart, carrierStop, State.emit_tx, State.withTx_tx, ← h]
  | space us => rfl

end Intervals

section Outcomes
variable (s : State)

/-- The outcomes of R16 answer a next state with the block unchanged but for the result. -/
theorem completed_eq_next {t : State} : completed s = .next t ↔ t = s.withResult .completed := by
  simp only [completed, Host.Outcome.next.injEq]
  exact eq_comm

theorem notEnabled_eq_next {t : State} : notEnabled s = .next t ↔ t = s.withResult .notEnabled := by
  simp only [notEnabled, Host.Outcome.next.injEq]
  exact eq_comm

theorem answered_eq_next {v : Word} {t : State} : answered v s = .next t ↔ t = s.withResult (.value v) := by
  simp only [answered, Host.Outcome.next.injEq]
  exact eq_comm

theorem refuseWord_eq_next {r : WordRefusal} {t : State} : refuseWord r s = .next t ↔ t = s.withResult (.refused r) := by
  simp only [refuseWord, Host.Outcome.next.injEq]
  exact eq_comm

/-- What is taken from the input queue, and what stays in it (entry 1). -/
theorem fetchWord_cons {w : Word} {ws : List Word} (h : s.stimulus = w :: ws) :
    fetchWord s = some (w, s.withStimulus ws) := by
  simp [fetchWord, h]

theorem fetchWord_nil (h : s.stimulus = []) : fetchWord s = none := by
  simp [fetchWord, h]

/-- The word just presented is the next one taken. -/
theorem fetchWord_presentWord (w : Word) : fetchWord (presentWord s w) = some (w, s) := rfl

end Outcomes

end Sys2Proof.Machine
end

