-- ==== Sys2Proof/Laws/PerInstr.lean ====
section
/-! SUPPORT. The per-instruction families of LAWS.json. `TableRow`: the encoding of an instruction carries
the fixed bits of its row of spec/opcode_table.json, which reach from bit 31 down to bit `fixedLow`. -/

namespace Sys2Proof.Laws

/-- The lowest fixed bit of an instruction's row. -/
def TableRow.fixedLow : Instr → Nat
  | .edge _ _ => 25
  | .poll => 0
  | .complete => 0
  | .txreq _ _ => 24
  | .txstep => 0
  | .read _ => 3
  | .reset => 0

/-- The value of the fixed bits, as the table gives it. -/
def TableRow.fixedValue : Instr → Word
  | .edge _ _ => 8
  | .poll => 536870912
  | .complete => 805306368
  | .txreq _ _ => 64
  | .txstep => 1342177280
  | .read _ => 201326592
  | .reset => 4026531840

/-- The encoding of `i` has its row's fixed bits. -/
def TableRow.Statement (i : Instr) : Prop := encode i >>> TableRow.fixedLow i = TableRow.fixedValue i

theorem TableRow.edge (d : Dir) (e : Ticks) : TableRow.Statement (.edge d e) := by
  apply BitVec.eq_of_toNat_eq
  have he := e.isLt
  have hd : d.bit.toNat ≤ 1 := Bool.toNat_le _
  rw [BitVec.toNat_ushiftRight, encode_edge_toNat, Nat.shiftRight_eq_div_pow]
  show _ / 2 ^ 25 = 8
  omega

theorem TableRow.poll : TableRow.Statement .poll := rfl

theorem TableRow.complete : TableRow.Statement .complete := rfl

theorem TableRow.txreq (a : Byte) (c : Command) : TableRow.Statement (.txreq a c) := by
  apply BitVec.eq_of_toNat_eq
  have ha := a.isLt
  have hc := c.isLt
  rw [BitVec.toNat_ushiftRight, encode_txreq_toNat, Nat.shiftRight_eq_div_pow]
  show _ / 2 ^ 24 = 64
  omega

theorem TableRow.txstep : TableRow.Statement .txstep := rfl

theorem TableRow.read (v : View) : TableRow.Statement (.read v) := by cases v <;> rfl

theorem TableRow.reset : TableRow.Statement .reset := rfl

end Sys2Proof.Laws
end

