-- ==== Sys2Proof/Laws/Step.lean ====
section
/-! SUPPORT. One inversion lemma per meaning and for the step: when it answers a next state, one of these
cases holds. -/

namespace Sys2Proof.Machine

variable {s t : State}

/-- EDGE drops the edge for one of two reasons, or captures it (R200). -/
theorem execEdge_cases {d : Dir} {e : Ticks} (h : execEdge d e s = .next t) :
    (s.cap.capEnabled = false ∧ t = (s.emit (.edgeDropped .disabled)).withResult .completed) ∨
    (s.cap.capEnabled = true ∧ d ≠ s.cap.capPolarity ∧ t = (s.emit (.edgeDropped .polarity)).withResult .completed) ∨
    (s.cap.capEnabled = true ∧ d = s.cap.capPolarity ∧ t = (captureEdge d e s).withResult .completed) := by
  unfold execEdge at h
  split at h
  · next h1 => exact .inl ⟨h1, (completed_eq_next _).1 h⟩
  · next h1 =>
    split at h
    · next h2 => exact .inr (.inl ⟨by simpa using h1, h2, (completed_eq_next _).1 h⟩)
    · next h2 => exact .inr (.inr ⟨by simpa using h1, by simpa using h2, (completed_eq_next _).1 h⟩)

/-- The transition of a taken event: one row of R134. -/
theorem receiveEvent_cases (d : Dir) (e : Ticks) (s : State) :
    (s.rx.rxState = .reset ∧ d = .rising ∧ classify s.cfg .trainingPulse e = true ∧
      receiveEvent d e s = s.withRx { s.rx with rxState := .trainingReceived }) ∨
    (s.rx.rxState = .trainingReceived ∧ d = .falling ∧ classify s.cfg .silenceAfterTraining e = true ∧
      receiveEvent d e s = s.withRx { s.rx with rxState := .receivingBits }) ∨
    (s.rx.rxState = .receivingBits ∧ d = .rising ∧ classify s.cfg .shortMark e = true ∧ receiveEvent d e s = s) ∨
    (s.rx.rxState = .receivingBits ∧ d = .falling ∧
      ∃ b, receiveEvent d e s = s.withRx (appendBit b s.rx)) ∨
    (s.rx.rxState ≠ .commandReceived ∧ ∃ k, receiveEvent d e s = anomaly k s) ∨
    (s.rx.rxState = .commandReceived ∧ receiveEvent d e s = s) := by
  cases hs : s.rx.rxState with
  | reset =>
    simp only [receiveEvent, hs, stepReset]
    split
    · next h => exact .inl ⟨trivial, h.1, h.2, rfl⟩
    · exact .inr (.inr (.inr (.inr (.inl ⟨by decide, _, rfl⟩))))
  | trainingReceived =>
    simp only [receiveEvent, hs, stepTraining]
    split
    · next h => exact .inr (.inl ⟨trivial, h.1, h.2, rfl⟩)
    · exact .inr (.inr (.inr (.inr (.inl ⟨by decide, _, rfl⟩))))
  | receivingBits =>
    cases d with
    | rising =>
      simp only [receiveEvent, hs, stepMark]
      split
      · next h => exact .inr (.inr (.inl ⟨trivial, trivial, h, rfl⟩))
      · exact .inr (.inr (.inr (.inr (.inl ⟨by decide, _, rfl⟩))))
    | falling =>
      simp only [receiveEvent, hs, stepSpace]
      split
      · exact .inr (.inr (.inr (.inl ⟨trivial, trivial, _, rfl⟩)))
      · split
        · exact .inr (.inr (.inr (.inl ⟨trivial, trivial, _, rfl⟩)))
        · exact .inr (.inr (.inr (.inr (.inl ⟨by decide, _, rfl⟩))))
  | commandReceived => exact .inr (.inr (.inr (.inr (.inr ⟨rfl, by simp [receiveEvent, hs]⟩))))

/-- POLL is not enabled, idle, or takes the event and makes one transition (R120, R121). -/
theorem execPoll_cases (h : execPoll s = .next t) :
    (enabled .poll s = false ∧ t = s.withResult .notEnabled) ∨
    (enabled .poll s = true ∧ s.mb.mbPending = false ∧ t = s.withResult .completed) ∨
    (enabled .poll s = true ∧ s.mb.mbPending = true ∧
      t = (receiveEvent s.mb.mbDir s.mb.mbElapsed (take s)).withResult .completed) := by
  unfold execPoll at h
  split at h
  · next h1 => exact .inl ⟨h1, (notEnabled_eq_next _).1 h⟩
  · next h1 =>
    split at h
    · next h2 => exact .inr (.inl ⟨by simpa using h1, h2, (completed_eq_next _).1 h⟩)
    · next h2 => exact .inr (.inr ⟨by simpa using h1, by simpa using h2, (completed_eq_next _).1 h⟩)

/-- What the validator's answer makes of the state before the frame is discarded (R130). -/
theorem dispatchFrame_cases (s : State) :
    (∃ c, validate s.rx.frame s.cfg.devAddr = some c ∧
      dispatchFrame s = (s.emit (.cmdDecoded c)).withRx { s.rx with resetCount := 0 }) ∨
    (validate s.rx.frame s.cfg.devAddr = none ∧
      dispatchFrame s = s.emit (.reject (rejectCause s.rx.frame s.cfg.devAddr))) := by
  unfold dispatchFrame
  cases h : validate s.rx.frame s.cfg.devAddr with
  | some c => exact .inl ⟨c, rfl, rfl⟩
  | none => exact .inr ⟨rfl, rfl⟩

/-- COMPLETE is not enabled, or it dispatches, discards and re-arms (R130). -/
theorem execComplete_cases (h : execComplete s = .next t) :
    (enabled .complete s = false ∧ t = s.withResult .notEnabled) ∨
    (enabled .complete s = true ∧ t = (rearm (discardFrame (dispatchFrame s))).withResult .completed) := by
  unfold execComplete at h
  split at h
  · next h1 => exact .inl ⟨h1, (notEnabled_eq_next _).1 h⟩
  · next h1 => exact .inr ⟨by simpa using h1, (completed_eq_next _).1 h⟩

/-- TXREQ is not enabled, or it starts a transmission (R170). -/
theorem execTxreq_cases {a : Byte} {c : Command} (h : execTxreq a c s = .next t) :
    (enabled (.txreq a c) s = false ∧ t = s.withResult .notEnabled) ∨
    (enabled (.txreq a c) s = true ∧
      t = (((s.withTx { s.tx with txFrame := encodeFrame a c, txActive := true, txIndex := 0 }).withCap
        { s.cap with capEnabled := false }).withRx (txreqRx s.cfg.txRxPolicy s.rx)).withResult .completed) := by
  unfold execTxreq at h
  split at h
  · next h1 => exact .inl ⟨h1, (notEnabled_eq_next _).1 h⟩
  · next h1 => exact .inr ⟨by simpa using h1, (completed_eq_next _).1 h⟩

/-- TXSTEP is not enabled, emits an interval, or ends the transmission (R174). -/
theorem execTxstep_cases (h : execTxstep s = .next t) :
    (s.tx.txActive = false ∧ t = s.withResult .notEnabled) ∨
    (s.tx.txActive = true ∧ s.tx.txIndex.toNat ≤ 98 ∧ t = (txEmit s).withResult .completed) ∨
    (s.tx.txActive = true ∧ 98 < s.tx.txIndex.toNat ∧ t = (txFinish s).withResult .completed) := by
  unfold execTxstep at h
  split at h
  · next h1 => exact .inl ⟨h1, (notEnabled_eq_next _).1 h⟩
  · next h1 =>
    have ha : s.tx.txActive = true := by simpa [enabled] using h1
    split at h
    · next h2 => exact .inr (.inl ⟨ha, h2, (completed_eq_next _).1 h⟩)
    · next h2 => exact .inr (.inr ⟨ha, by omega, (completed_eq_next _).1 h⟩)

/-- READ answers the view's value (R82). -/
theorem execRead_cases {v : View} (h : execRead v s = .next t) : t = s.withResult (.value (viewValue v s)) :=
  (answered_eq_next _).1 h

/-- RESET sets every field of the record and resets the timer (R270). -/
theorem execReset_cases (h : execReset s = .next t) :
    t = ((resetBlock s).emit .timerReset).withResult .completed :=
  (completed_eq_next _).1 h

/-- A step idled, refused an ill-formed word and left the block unchanged, or ran the instruction of the word
it took (R16, R83). -/
theorem step_cases (h : step s = .next t) :
    (s.stimulus = [] ∧ t = s) ∨
    (∃ w ws r, s.stimulus = w :: ws ∧ decode s.cfg.tickBits w = .error r ∧
      t = (s.withStimulus ws).withResult (.refused r)) ∨
    ∃ w ws i, s.stimulus = w :: ws ∧ decode s.cfg.tickBits w = .ok i ∧ exec i (s.withStimulus ws) = .next t := by
  unfold step at h
  cases hs : s.stimulus with
  | nil =>
    rw [fetchWord_nil s hs] at h
    exact .inl ⟨rfl, (Host.Outcome.next.inj h).symm⟩
  | cons w ws =>
    rw [fetchWord_cons s hs] at h
    cases hd : decode s.cfg.tickBits w with
    | error r =>
      simp only [hd] at h
      exact .inr (.inl ⟨w, ws, r, rfl, hd, (refuseWord_eq_next _).1 h⟩)
    | ok i => exact .inr (.inr ⟨w, ws, i, rfl, hd, by simpa [hd] using h⟩)

end Sys2Proof.Machine
end

