-- ==== Sys2Proof/Laws/Runs.lean ====
section
/-! SUPPORT. Runs: what one transition of the receive state machine leaves alone, that a step does not look
at the words behind its own, and one more step of a run. -/

namespace Sys2Proof.Machine

/-- A transition writes the receive fields and at most one anomaly event, nothing else (R120, R128). -/
theorem receiveEvent_frame (d : Dir) (e : Ticks) (s : State) :
    (receiveEvent d e s).cfg = s.cfg ∧ (receiveEvent d e s).mb = s.mb ∧ (receiveEvent d e s).cap = s.cap ∧
    (receiveEvent d e s).tx = s.tx ∧ (receiveEvent d e s).stimulus = s.stimulus ∧
    ∃ es, (receiveEvent d e s).trace = s.trace ++ es ∧ (es = [] ∨ ∃ k, es = [.anomaly k]) := by
  rcases receiveEvent_cases d e s with ⟨_, _, _, h⟩ | ⟨_, _, _, h⟩ | ⟨_, _, _, h⟩ | ⟨_, _, b, h⟩ | ⟨_, k, h⟩ | ⟨_, h⟩ <;>
    rw [h] <;> simp

/-- A POLL that answers leaves the configuration, the capture controls and the transmit fields alone, and does not
reset the timer (R120, R207). -/
theorem execPoll_frame {s t : State} (h : execPoll s = .next t) :
    t.cfg = s.cfg ∧ t.cap = s.cap ∧ t.tx = s.tx ∧
    ∃ es, t.trace = s.trace ++ es ∧ Event.timerReset ∉ es := by
  rcases execPoll_cases h with ⟨-, rfl⟩ | ⟨-, -, rfl⟩ | ⟨-, -, rfl⟩
  · exact ⟨rfl, rfl, rfl, [], by simp⟩
  · exact ⟨rfl, rfl, rfl, [], by simp⟩
  · obtain ⟨hcfg, -, hcap, htx, -, es, htr, hes⟩ := receiveEvent_frame s.mb.mbDir s.mb.mbElapsed (take s)
    refine ⟨by simp [hcfg], by simp [hcap], by simp [htx], es, by simp [htr], ?_⟩
    rcases hes with rfl | ⟨k, rfl⟩ <;> simp

/-- The edges of a waveform depend on its end only through the edges of that end (R212). -/
theorem edgesFrom_append_congr {c : Config} {x y : List PulseInterval}
    (h : ∀ l us, edgesFrom c l us x = edgesFrom c l us y) (before : List PulseInterval) :
    ∀ l us, edgesFrom c l us (before ++ x) = edgesFrom c l us (before ++ y) := by
  induction before with
  | nil => exact h
  | cons iv ivs ih =>
    intro l us
    simp only [List.cons_append, edgesFrom, ih]

/-- A transition does not look at the input queue. -/
theorem receiveEvent_withStimulus (d : Dir) (e : Ticks) (s : State) (ws : List Word) :
    receiveEvent d e (s.withStimulus ws) = (receiveEvent d e s).withStimulus ws := by
  simp only [receiveEvent, State.withStimulus_rx]
  cases s.rx.rxState
  · by_cases hc : d = .rising ∧ classify s.cfg .trainingPulse e = true <;> simp [stepReset, hc] <;> rfl
  · by_cases hc : d = .falling ∧ classify s.cfg .silenceAfterTraining e = true <;>
      simp [stepTraining, hc] <;> rfl
  · cases d
    · by_cases hc : classify s.cfg .longSpace e = true
      · simp [stepSpace, hc]
        rfl
      · by_cases hd : classify s.cfg .shortSpace e = true <;> simp [stepSpace, hc, hd] <;> rfl
    · by_cases hc : classify s.cfg .shortMark e = true
      · simp [stepMark, hc]
      · simp [stepMark, hc]
        rfl
  · rfl

/-- No meaning looks at the input queue: with other words waiting it does the same (R55). -/
theorem exec_withStimulus {i : Instr} {s t : State} (ws : List Word) (h : exec i s = .next t) :
    exec i (s.withStimulus ws) = .next (t.withStimulus ws) := by
  cases i with
  | edge d e =>
    rcases execEdge_cases h with ⟨h1, rfl⟩ | ⟨h1, h2, rfl⟩ | ⟨h1, h2, rfl⟩
    · simp [exec, execEdge, h1, completed, State.emit, State.withResult, State.withStimulus]
    · simp [exec, execEdge, h1, h2, completed, State.emit, State.withResult, State.withStimulus]
    · simp only [exec, execEdge, State.withStimulus_cap, h1, h2, completed, captureEdge]
      cases hp : s.mb.mbPending <;> simp [hp] <;> rfl
  | poll =>
    rcases execPoll_cases h with ⟨h1, rfl⟩ | ⟨h1, h2, rfl⟩ | ⟨h1, h2, rfl⟩
    all_goals have h1' := show enabled .poll (s.withStimulus ws) = _ from h1
    · simp only [exec, execPoll, h1', if_true]
      rfl
    · simp [exec, execPoll, h1', h2]
      rfl
    · simp [exec, execPoll, h1', h2, completed]
      show (receiveEvent s.mb.mbDir s.mb.mbElapsed ((take s).withStimulus ws)).withResult _ = _
      rw [receiveEvent_withStimulus]
      rfl
  | complete =>
    rcases execComplete_cases h with ⟨h1, rfl⟩ | ⟨h1, rfl⟩
    all_goals have h1' := show enabled .complete (s.withStimulus ws) = _ from h1
    · simp only [exec, execComplete, h1', if_true]
      rfl
    · simp [exec, execComplete, h1', completed, dispatchFrame]
      cases validate s.rx.frame s.cfg.devAddr <;> rfl
  | txreq a c =>
    rcases execTxreq_cases h with ⟨h1, rfl⟩ | ⟨h1, rfl⟩
    all_goals have h1' := show enabled (.txreq a c) (s.withStimulus ws) = _ from h1
    · simp only [exec, execTxreq, h1', if_true]
      rfl
    · simp [exec, execTxreq, h1', completed]
      rfl
  | txstep =>
    rcases execTxstep_cases h with ⟨h1, rfl⟩ | ⟨h1, h2, rfl⟩ | ⟨h1, h2, rfl⟩
    · simp [exec, execTxstep, enabled, h1]
      rfl
    · simp [exec, execTxstep, enabled, h1, h2, completed, txEmit]
      cases pulse s.cfg s.tx.txFrame s.tx.txIndex.toNat <;> rfl
    · simp [exec, execTxstep, enabled, h1, show ¬ s.tx.txIndex.toNat ≤ 98 by omega]
      rfl
  | read v =>
    cases h
    cases v <;> rfl
  | reset =>
    cases h
    rfl

/-- The commands of two lists of events, one after the other. -/
theorem decodedCommands_append (es fs : List Event) :
    decodedCommands (es ++ fs) = decodedCommands es ++ decodedCommands fs := by
  induction es with
  | nil => rfl
  | cons x xs ih => cases x <;> simp [decodedCommands, ih]

/-- A run of one more step. -/
theorem core_run_succ {M : Host.Core} {k : Nat} {s s' : M.State} (h : M.step s = .next s') :
    M.run (k + 1) s = M.run k s' := by
  show (match M.step s with
    | .next s' => Host.Core.run M k s'
    | .fault r => .fault r
    | .refused r => .refused r) = _
  rw [h]

end Sys2Proof.Machine
end

