-- ==== Sys2Proof/Tests/Slice0.lean ====
section
/-! SUPPORT. Tests of the model on the vectors of spec/95_test_vectors.md, and for each statement with
hypotheses a concrete state and operands that meet them, at the ends of their ranges. -/

namespace Sys2Proof.Machine.Tests

/-! ### Small states -/

/-- The state an outcome answers. -/
def nextOf (o : StepOutcome) : Option State :=
  match o with
  | .next s => some s
  | .fault _ => none
  | .refused _ => none

/-- Construction with other receive fields: a state, current byte, bit count, byte count and counter. -/
def receiving (x : RxState) (cur : Byte) (bits bytes : BitVec 3) (count : BitVec 16) : State :=
  State.reset.withRx ⟨x, Frame.zero, cur, bits, bytes, count⟩

/-- `s` with a pending event, the polarity as after its capture. -/
def pending (d : Dir) (e : Ticks) (s : State) : State := (s.withMb ⟨true, e, d⟩).withCap { s.cap with capPolarity := d.flip }

/-- Construction with a waiting frame. -/
def waiting (f : Frame) (count : BitVec 16) : State := State.reset.withRx ⟨.commandReceived, f, 0, 0, 6, count⟩

/-- Construction in a transmission of the frame of `txreq 0xAA, 0x0028`, at an interval. -/
def sending (i : BitVec 7) : State :=
  (State.reset.withTx ⟨true, i, ⟨0xAA, 0x55, 0x00, 0xFF, 0x28, 0xD7⟩, false⟩).withCap ⟨.falling, false⟩

/-- The frame of scenario S1 (section 1.7). -/
def s1Frame : Frame := ⟨0xAA, 0x55, 0x00, 0xFF, 0x28, 0xD7⟩

/-! ### Well-formedness -/

/-- The one check: an elapsed count of 17 bits is ill formed at `TICK_BITS = 16`, one of 16 bits is not (R84). -/
theorem test_wellFormed_refuses_wide_elapsed :
    (Instr.edge .falling 0x010000).wellFormed 16 = false ∧ (Instr.edge .falling 0x00FFFF).wellFormed 16 = true := by
  decide

/-! ### Decoding: words written out from the formats of R76 to R82 and the refusals of section 2.8 -/

/-- EDGE: opcode 0001, reserved 000, direction, 24 bits of elapsed count (R76). -/
theorem test_decode_edge_bits :
    decode 16 0b0001_000_1_000000000000001111101000 = .ok (.edge .rising 1000) ∧
    decode 16 0b0001_000_0_000000001111111111111111 = .ok (.edge .falling 65535) := by decide

/-- The same format at `TICK_BITS = 24` (section 2.8). -/
theorem test_decode_edge_wide :
    decode 24 0x10010000 = .ok (.edge .falling 65536) ∧ decode 24 0x10FFFFFF = .ok (.edge .falling 16777215) := by
  decide

/-- POLL (R77), COMPLETE (R78), TXSTEP (R80) and RESET (R81): an opcode and 28 zero bits. -/
theorem test_decode_bare_bits :
    decode 16 0b0010_0000000000000000000000000000 = .ok .poll ∧
    decode 16 0b0011_0000000000000000000000000000 = .ok .complete ∧
    decode 16 0b0101_0000000000000000000000000000 = .ok .txstep ∧
    decode 16 0b1111_0000000000000000000000000000 = .ok .reset := by decide

/-- TXREQ: opcode 0100, reserved 0000, address, command (R79). -/
theorem test_decode_txreq_bits :
    decode 16 0b0100_0000_10101010_0000000000101000 = .ok (.txreq 0xAA 0x0028) ∧
    decode 16 0b0100_0000_11111111_1111111111111111 = .ok (.txreq 0xFF 0xFFFF) := by decide

/-- READ: opcode 0110, 25 zero bits, view (R82). -/
theorem test_decode_read_bits :
    decode 16 0b0110_0000000000000000000000000_000 = .ok (.read .status) ∧
    decode 16 0b0110_0000000000000000000000000_011 = .ok (.read .frameA) ∧
    decode 16 0b0110_0000000000000000000000000_110 = .ok (.read .txFrameB) := by decide

/-- Opcodes with no step (section 2.8). -/
theorem test_decode_illegal_opcode :
    decode 16 0x00000000 = .error .illegalOpcode ∧ decode 16 0x70000000 = .error .illegalOpcode ∧
    decode 16 0xE0000000 = .error .illegalOpcode := by decide

/-- Reserved bits, tested before the width and before the view (section 2.8). -/
theorem test_decode_reserved_bits :
    decode 16 0x12000000 = .error .reservedBits ∧ decode 16 0x12010000 = .error .reservedBits ∧
    decode 16 0x20000001 = .error .reservedBits ∧ decode 16 0x41000000 = .error .reservedBits ∧
    decode 16 0x60000008 = .error .reservedBits ∧ decode 16 0x6000000F = .error .reservedBits ∧
    decode 16 0xF0000001 = .error .reservedBits := by decide

/-- An elapsed value of 2^16 and the reserved view (section 2.8). -/
theorem test_decode_operand_refusals :
    decode 16 0x10010000 = .error .elapsedTooWide ∧ decode 16 0x60000007 = .error .badView := by decide

/-- The table word of EDGE, 32 bits, and the same word as the next step after reset. -/
theorem test_decodeTableWord :
    decodeTableWord 32 0x1000FFFF = some (.edge .falling 65535) ∧
    (State.reset.withFetchWord 32 0x1000FFFF).stimulus = [0x1000FFFF] := by decide

/-! ### The classifier (section 2.1) -/

/-- Truncation at 46 875 ticks a second. -/
theorem test_toTicks :
    [500, 600, 700, 900, 1000, 1100, 1550, 1650, 1750, 2000].map
      (toTicks { Config.default with tickRateHz := 46875 }) = [23, 28, 32, 42, 46, 51, 72, 77, 82, 93] := by decide

/-- Windows at margin 600, where `lo(T_SHORT_US)` is 0. -/
theorem test_windows :
    (lo { Config.default with marginUs := 600 } 600, hi { Config.default with marginUs := 600 } 600) = (0, 1200) ∧
    (lo Config.default 1650, hi Config.default 1650) = (1550, 1750) := by decide

/-! ### EDGE (section 2.7) -/

/-- A capture while an event is pending: READ 2 shows the new count, and an overrun precedes the reset. -/
theorem test_edge_overruns :
    (nextOf (exec (.edge .falling 30) (pending .rising 20 State.reset))).map
      (fun t => (viewValue .mbElapsed t, t.cap.capPolarity, t.trace)) =
      some (0x0000001E, .rising, [.overrun, .timerReset]) := by decide

/-- The other polarity is dropped; READ 0 stays the value after RESET. -/
theorem test_edge_dropped :
    (nextOf (exec (.edge .rising 0) State.reset)).map (fun t => (viewValue .status t, t.trace)) =
      some (0x00000800, [.edgeDropped .polarity]) := by decide

/-! ### POLL (sections 2.2 and 2.3) -/

/-- The bit that completes byte 5 with 0xD7. -/
theorem test_poll_last_bit :
    (nextOf (exec .poll (pending .falling 1650 (receiving .receivingBits 0x6B 7 5 0)))).map (fun t => t.rx) =
      some ⟨.commandReceived, ⟨0, 0, 0, 0, 0, 0xD7⟩, 0, 0, 6, 0⟩ := by decide

/-- A space between the windows: an anomaly, the counter saturating at 2 bits. -/
theorem test_poll_anomaly_saturates :
    (nextOf (exec .poll { pending .falling 1000 (receiving .receivingBits 5 3 0 3) with
      cfg := { Config.default with resetCountBits := 2 } })).map (fun t => (t.rx, t.trace)) =
      some (⟨.reset, Frame.zero, 0, 0, 0, 3⟩, [.anomaly .space]) := by decide

/-! ### COMPLETE (section 2.4) -/

/-- A broadcast frame is decoded and clears the counter. -/
theorem test_complete_broadcast :
    (nextOf (exec .complete (waiting ⟨0xFF, 0x00, 0x12, 0xED, 0x34, 0xCB⟩ 4))).map (fun t => (t.rx, t.trace)) =
      some (⟨.reset, Frame.zero, 0, 0, 0, 0⟩, [.cmdDecoded 0x1234, .timerReset]) := by decide

/-- A frame with a bad last pair is rejected and keeps the counter. -/
theorem test_complete_rejects :
    (nextOf (exec .complete (waiting ⟨0xAA, 0x55, 0x00, 0xFF, 0x28, 0xD6⟩ 2))).map (fun t => (t.rx, t.trace)) =
      some (⟨.reset, Frame.zero, 0, 0, 0, 2⟩, [.reject .pair2, .timerReset]) := by decide

/-! ### TXREQ and TXSTEP (section 2.6) -/

/-- `txreq 0x12, 0xBEEF` in the middle of a frame, policy reset: scratch zero, the counter not counted. -/
theorem test_txreq_resets_receive :
    (nextOf (exec (.txreq 0x12 0xBEEF) (receiving .receivingBits 5 3 0 1))).map (fun t => (t.rx, t.tx, t.trace)) =
      some (⟨.reset, Frame.zero, 0, 0, 0, 1⟩, ⟨true, 0, ⟨0x12, 0xED, 0xBE, 0x41, 0xEF, 0x10⟩, false⟩, []) := by decide

/-- Policy preserve keeps the partial frame. -/
theorem test_txreq_preserves_receive :
    (nextOf (exec (.txreq 1 2) { receiving .receivingBits 5 3 0 1 with
      cfg := { Config.default with txRxPolicy := .preserve } })).map (fun t => t.rx) =
      some ⟨.receivingBits, Frame.zero, 5, 3, 0, 1⟩ := by decide

/-- Intervals 0, 1, 2, 3, 17, 19, 97 and 98 of the frame AA 55 00 FF 28 D7. -/
theorem test_txstep_intervals :
    [0, 1, 2, 3, 17, 19, 97, 98].map (fun i => (nextOf (exec .txstep (sending i))).map (fun t => t.trace)) =
      [some [.mark 1000], some [.space 600], some [.mark 600], some [.space 1650], some [.space 600],
        some [.space 600], some [.space 1650], some [.mark 600]] := by decide

/-- The last TXSTEP. -/
theorem test_txstep_end :
    (nextOf (exec .txstep (sending 99))).map (fun t => (t.cap, t.tx.txActive, t.tx.txIndex, t.trace)) =
      some (⟨.falling, true⟩, false, 0, [.timerReset, .txDone]) := by decide

/-! ### READ and RESET (sections 2.6 and 2.9) -/

/-- READ 0 with a frame waiting and the final Rising edge pending. -/
theorem test_read_status :
    (nextOf (exec (.read .status) (pending .rising 600 (waiting s1Frame 1)))).map (fun t => t.result) =
      some (.value 0x00000BC3) := by decide

/-- READ 4 with the same frame waiting. -/
theorem test_read_frameB :
    (nextOf (exec (.read .frameB) (waiting s1Frame 1))).map (fun t => t.result) = some (.value 0x28D70000) := by decide

/-- RESET in the middle of a transmission: READ 0 before and after. -/
theorem test_reset_in_transmission :
    viewValue .status (sending 40) = 0x00051000 ∧
    (nextOf (exec .reset (sending 40))).map (fun t => (viewValue .status t, t.trace)) =
      some (0x00000800, [.timerReset]) := by decide

/-! ### Refused words and the line model -/

/-- A word that is no legal encoding leaves every field of the block as it was (R16), mid-transmission too. -/
theorem test_step_refused_word :
    nextOf (step ((sending 40).withFetchWord 32 0x60000007)) = some ((sending 40).withResult (.refused .badView)) := by
  decide

/-- The run goes on after a refused word: the POLL behind it is taken. -/
theorem test_step_after_refused_word :
    (nextOf (step ((pending .rising 1000 State.reset).withStimulus [0x00000000, 0x20000000]))).bind
      (fun s => (nextOf (step s)).map (fun t => t.rx.rxState)) = some .trainingReceived := by decide

/-- Only changes of level are edges: a space after the idle gap, two marks, two spaces, a last space (R212). -/
theorem test_lineEdges_level_changes :
    lineEdges Config.default 1000 [.space 100, .mark 200, .mark 300, .space 40, .space 10, .mark 7, .space 9] =
      [.edge .falling 1100, .edge .rising 500, .edge .falling 50, .edge .rising 7] := by decide

/-! ### Pseudo-instructions (R88) -/

/-- `tx` is 101 words, `rxframe` is 99 EDGE, 99 POLL and 1 COMPLETE. -/
theorem test_pseudo_lengths :
    (pseudoTx 0xAA 0x0028).length = 101 ∧ (pseudoRxframe Config.default 65535 s1Frame).length = 199 := by
  simp [pseudoTx, transmission, pseudoRxframe, pseudoBit, pseudoRx, List.length_flatMap]

/-- A line with a comment, and a comma too few. -/
theorem test_assemble_lines :
    assemble Config.default ["read frame_a ; x".toList, "".toList] = some [0x60000003] ∧
    assemble Config.default ["txreq 1 2".toList] = none := by decide

/-! ### Witnesses: the hypotheses of each statement, met at the ends of their ranges -/

theorem witness_DecodeOfEncode :
    (Instr.edge .rising 0xFFFF).wellFormed 16 = true ∧ (Instr.edge .falling 0xFFFFFF).wellFormed 24 = true ∧
    (Instr.edge .falling 0).wellFormed 0 = true := by decide

theorem witness_EncodeOfDecode :
    decode 24 0x11FFFFFF = .ok (.edge .rising 0xFFFFFF) ∧ decode 16 0x60000006 = .ok (.read .txFrameB) := by decide

theorem witness_RxframeIsLineModel : configLegal Config.default = true := by decide

theorem witness_StepRunsDecodedInstruction :
    (State.reset.withFetchWord 32 0x1000FFFF).stimulus = 0x1000FFFF :: [] ∧
    decode (State.reset.withFetchWord 32 0x1000FFFF).cfg.tickBits 0x1000FFFF = .ok (.edge .falling 65535) := by decide

theorem witness_StepRefusesIllFormedWord :
    (State.reset.withFetchWord 32 0x60000007).stimulus = 0x60000007 :: [] ∧
    decode (State.reset.withFetchWord 32 0x60000007).cfg.tickBits 0x60000007 = .error .badView := by decide

theorem witness_StepHoldsStateWithoutWord : State.reset.stimulus = [] := rfl

/-- One state for each clause on the state; both disjuncts of the disabling ones. -/
theorem witness_EnablingTable :
    (sending 0).tx.txActive = true ∧ (sending 0).rx.rxState ≠ .commandReceived ∧
    (waiting s1Frame 0).tx.txActive = false ∧ (waiting s1Frame 0).rx.rxState = .commandReceived ∧
    State.reset.tx.txActive = false ∧ State.reset.rx.rxState ≠ .commandReceived := by decide

/-- A disabled path, the other polarity, a capture with nothing pending and one that overruns. -/
theorem witness_EdgeStep :
    (sending 0).cap.capEnabled = false ∧
    (State.reset.cap.capEnabled = true ∧ Dir.rising ≠ State.reset.cap.capPolarity) ∧
    (State.reset.cap.capEnabled = true ∧ Dir.falling = State.reset.cap.capPolarity ∧
      State.reset.mb.mbPending = false) ∧
    (pending .rising 20 State.reset).cap.capEnabled = true ∧
    Dir.falling = (pending .rising 20 State.reset).cap.capPolarity ∧
    (pending .rising 20 State.reset).mb.mbPending = true := by decide

/-- Sound states of every shape the statements speak of. -/
theorem sound_reset : Sound State.reset := by
  constructor <;> first | decide | exact fun _ => ⟨rfl, rfl, rfl, rfl⟩

theorem sound_sending_first : Sound (sending 0) := by
  constructor <;> first | decide | exact fun _ => ⟨rfl, rfl, rfl, rfl⟩

theorem sound_sending_last : Sound (sending 99) := by
  constructor <;> first | decide | exact fun _ => ⟨rfl, rfl, rfl, rfl⟩

theorem witness_NoSelfCapture :
    (Sound (sending 0) ∧ (sending 0).tx.txActive = true) ∧ Sound (sending 99) ∧ (sending 99).tx.txActive = true :=
  ⟨⟨sound_sending_first, rfl⟩, sound_sending_last, rfl⟩

theorem witness_PollIdle :
    State.reset.tx.txActive = false ∧ State.reset.rx.rxState ≠ .commandReceived ∧
    State.reset.mb.mbPending = false := by decide

/-- Every count, those at the ends of the TrainingPulse window, 900 and 1100, among them. -/
theorem witness_PollInReset :
    (∀ e : Ticks,
      (pending .rising e State.reset).tx.txActive = false ∧ (pending .rising e State.reset).rx.rxState = .reset ∧
      (pending .rising e State.reset).mb.mbPending = true) ∧
    lo Config.default 1000 = 900 ∧ hi Config.default 1000 = 1100 :=
  ⟨fun _ => ⟨rfl, rfl, rfl⟩, by decide, by decide⟩

theorem witness_PollInTraining :
    (∀ e : Ticks,
      (pending .falling e (receiving .trainingReceived 0 0 0 0)).tx.txActive = false ∧
      (pending .falling e (receiving .trainingReceived 0 0 0 0)).rx.rxState = .trainingReceived ∧
      (pending .falling e (receiving .trainingReceived 0 0 0 0)).mb.mbPending = true) ∧
    lo Config.default 600 = 500 ∧ hi Config.default 600 = 700 :=
  ⟨fun _ => ⟨rfl, rfl, rfl⟩, by decide, by decide⟩

theorem witness_PollMark :
    ∀ e : Ticks,
      (pending .rising e (receiving .receivingBits 0 0 0 0)).tx.txActive = false ∧
      (pending .rising e (receiving .receivingBits 0 0 0 0)).rx.rxState = .receivingBits ∧
      (pending .rising e (receiving .receivingBits 0 0 0 0)).mb.mbPending = true ∧
      (pending .rising e (receiving .receivingBits 0 0 0 0)).mb.mbDir = .rising :=
  fun _ => ⟨rfl, rfl, rfl, rfl⟩

theorem witness_PollSpace :
    ∀ e : Ticks,
      (pending .falling e (receiving .receivingBits 0 0 0 0)).tx.txActive = false ∧
      (pending .falling e (receiving .receivingBits 0 0 0 0)).rx.rxState = .receivingBits ∧
      (pending .falling e (receiving .receivingBits 0 0 0 0)).mb.mbPending = true ∧
      (pending .falling e (receiving .receivingBits 0 0 0 0)).mb.mbDir = .falling :=
  fun _ => ⟨rfl, rfl, rfl, rfl⟩

/-- Bits 0 and 6 of a byte, and the last bit of bytes 0, 4 and 5. -/
theorem witness_AppendBit :
    ((receiving .receivingBits 0 0 0 0).rx.bitCount.toNat < 7 ∧ (receiving .receivingBits 0 6 5 0).rx.bitCount.toNat < 7) ∧
    ∀ n ∈ ([0, 4, 5] : List (BitVec 3)),
      (receiving .receivingBits 0x54 7 n 0).rx.bitCount.toNat = 7 ∧
      (receiving .receivingBits 0x54 7 n 0).rx.byteCount.toNat < 6 := by decide

theorem witness_EightBitsStoreTheirByte :
    ∀ n ∈ ([0, 4, 5] : List (BitVec 3)),
      (receiving .receivingBits 0 0 n 0).rx.bitCount = 0 ∧ (receiving .receivingBits 0 0 n 0).rx.curByte = 0 ∧
      (receiving .receivingBits 0 0 n 0).rx.byteCount.toNat < 6 := by decide

theorem witness_ResetCounterSaturates :
    State.reset.cfg.resetCountBits ≤ 16 ∧ (receiving .reset 0 0 0 65535).rx.resetCount.toNat + 1 = 2 ^ 16 := by decide

theorem witness_CommandReceivedEntry :
    ∃ t, exec .poll (pending .falling 1650 (receiving .receivingBits 0x6B 7 5 0)) = .next t ∧
      t.rx.rxState = .commandReceived ∧
      (pending .falling 1650 (receiving .receivingBits 0x6B 7 5 0)).rx.rxState ≠ .commandReceived :=
  ⟨_, rfl, by decide, by decide⟩

theorem sound_training : Sound (pending .falling 600 (receiving .trainingReceived 0 0 0 0)) := by
  constructor <;> first | decide | exact fun _ => ⟨rfl, rfl, rfl, rfl⟩

theorem sound_mark : Sound (pending .rising 600 (receiving .receivingBits 0x6B 7 5 0)) := by
  constructor <;> first | decide | exact fun h => by rcases h with h | h <;> cases h

theorem sound_space : Sound (pending .falling 600 (receiving .receivingBits 0x6B 7 5 0)) := by
  constructor <;> first | decide | exact fun h => by rcases h with h | h <;> cases h

/-- Entry to ReceivingBits, a mark that adds no bit, and the 48th bit. -/
theorem witness_CollectedBitsCountUp :
    (Sound (pending .falling 600 (receiving .trainingReceived 0 0 0 0)) ∧
      ∃ t, exec .poll (pending .falling 600 (receiving .trainingReceived 0 0 0 0)) = .next t ∧
        t.rx.rxState = .receivingBits) ∧
    (Sound (pending .rising 600 (receiving .receivingBits 0x6B 7 5 0)) ∧
      ∃ t, exec .poll (pending .rising 600 (receiving .receivingBits 0x6B 7 5 0)) = .next t ∧
        t.rx.rxState = .receivingBits ∧ collectedBits t.rx = 47) ∧
    (Sound (pending .falling 600 (receiving .receivingBits 0x6B 7 5 0)) ∧
      ∃ t, exec .poll (pending .falling 600 (receiving .receivingBits 0x6B 7 5 0)) = .next t ∧
        t.rx.rxState = .commandReceived ∧ collectedBits t.rx = 48) :=
  ⟨⟨sound_training, _, rfl, by decide⟩, ⟨sound_mark, _, rfl, by decide, by decide⟩,
    sound_space, _, rfl, by decide, by decide⟩

/-- An accepted frame and a rejected one; not enabled during a transmission, nor before the 48th bit. -/
theorem witness_CompleteStep :
    ((sending 0).tx.txActive = true ∧ (receiving .receivingBits 0x6B 7 5 0).rx.rxState ≠ .commandReceived) ∧
    ((waiting s1Frame 1).tx.txActive = false ∧ (waiting s1Frame 1).rx.rxState = .commandReceived ∧
      validate (waiting s1Frame 1).rx.frame (waiting s1Frame 1).cfg.devAddr = some 0x0028) ∧
    (waiting Frame.zero 1).tx.txActive = false ∧ (waiting Frame.zero 1).rx.rxState = .commandReceived ∧
    validate (waiting Frame.zero 1).rx.frame (waiting Frame.zero 1).cfg.devAddr = none := by decide

/-- Frames of sections 1.2 and 2.5, accepted by the configured and by the broadcast address, and one that a
configured 0xFF rejects. -/
theorem witness_ValidateAcceptsExactly :
    validate s1Frame 0xAA = some 0x0028 ∧ validate ⟨0xFF, 0x00, 0x01, 0xFE, 0x02, 0xFD⟩ 0xFF = some 0x0102 ∧
    validate ⟨0xAA, 0x55, 0x01, 0xFE, 0x02, 0xFD⟩ 0xFF = none := by decide

/-- One frame of section 1.3 for each cause. -/
theorem witness_RejectCauseIsFirstFailing :
    (validate ⟨0x01, 0, 0, 0, 0, 0⟩ 0xAA = none ∧ rejectCause ⟨0x01, 0, 0, 0, 0, 0⟩ 0xAA = .addr) ∧
    (validate Frame.zero 0x00 = none ∧ rejectCause Frame.zero 0x00 = .pair0) ∧
    (validate ⟨0xAA, 0x55, 0x00, 0xFE, 0x28, 0xD7⟩ 0xAA = none ∧
      rejectCause ⟨0xAA, 0x55, 0x00, 0xFE, 0x28, 0xD7⟩ 0xAA = .pair1) ∧
    validate ⟨0xAA, 0x55, 0x00, 0xFF, 0x28, 0xD6⟩ 0xAA = none ∧
    rejectCause ⟨0xAA, 0x55, 0x00, 0xFF, 0x28, 0xD6⟩ 0xAA = .pair2 := by decide

/-- Enabled in the middle of a frame; not enabled during a transmission, nor with a frame waiting. -/
theorem witness_TxreqStep :
    ((receiving .receivingBits 5 3 0 1).tx.txActive = false ∧
      (receiving .receivingBits 5 3 0 1).rx.rxState ≠ .commandReceived) ∧
    (sending 0).tx.txActive = true ∧ (waiting s1Frame 1).rx.rxState = .commandReceived := by decide

/-- The first interval and the last. -/
theorem witness_TxstepInterval :
    ∀ i ∈ ([0, 98] : List (BitVec 7)),
      (sending i).tx.txActive = true ∧ (sending i).tx.txIndex.toNat ≤ 98 ∧ (sending i).tx.carrier = false := by decide

/-- The last index, and both exits from a transmission. -/
theorem witness_TxstepEnd :
    ((sending 99).tx.txActive = true ∧ 98 < (sending 99).tx.txIndex.toNat) ∧
    (∃ t, exec .txstep (sending 99) = .next t ∧ t.tx.txActive = false) ∧
    ∃ t, exec .reset (sending 0) = .next t ∧ t.tx.txActive = false :=
  ⟨by decide, ⟨_, rfl, rfl⟩, _, rfl, rfl⟩

theorem witness_TransmissionEmitsTrain :
    (receiving .receivingBits 5 3 0 1).tx.txActive = false ∧
    (receiving .receivingBits 5 3 0 1).rx.rxState ≠ .commandReceived ∧
    (receiving .receivingBits 5 3 0 1).tx.carrier = false := by decide

theorem witness_ResetValues :
    (∃ t, construct { Config.default with marginUs := 600 } = .next t) ∧ ∃ t, exec .reset (sending 99) = .next t :=
  ⟨⟨_, rfl⟩, _, rfl⟩

/-- A legal configuration at the ends of its ranges, and three illegal ones just past them. -/
theorem witness_ConstructionNeedsLegalConfig :
    configLegal { Config.default with marginUs := 600, tickBits := 24, resetCountBits := 1 } = true ∧
    configLegal { Config.default with marginUs := 601 } = false ∧
    configLegal { Config.default with tickBits := 25 } = false ∧
    configLegal { Config.default with tickBits := 10 } = false := by decide

theorem witness_ToTicksTruncates :
    Config.default.tickRateHz = 1000000 ∧ (599 : Nat) ≤ 600 ∧
    toTicks { Config.default with tickRateHz := 46875 } 600 * 1000000 < 600 * 46875 := by decide

/-- A nominal duration at the margin and one above it, and the four values around the short window. -/
theorem witness_WindowBoundaries :
    (Config.default.marginUs ≤ 100 ∧ lo Config.default 100 = 0) ∧ Config.default.marginUs ≤ 600 ∧
    (500 : Ticks).toNat = lo Config.default 600 ∧ (700 : Ticks).toNat = hi Config.default 600 ∧
    (701 : Ticks).toNat = hi Config.default 600 + 1 ∧ (499 : Ticks).toNat + 1 = lo Config.default 600 := by decide

/-- At margin 524 the spaces are still told apart; at 600 they still are by the short unit alone (section 2.1). -/
theorem witness_NominalDurationsClassify :
    (configLegal { Config.default with marginUs := 524 } = true ∧
      toTicks { Config.default with marginUs := 524 } 600 < lo { Config.default with marginUs := 524 } 1650) ∧
    configLegal { Config.default with marginUs := 600 } = true ∧
    toTicks { Config.default with marginUs := 600 } 600 < lo { Config.default with marginUs := 600 } 1650 := by decide

/-- The largest count, and one past it at each overflow. -/
theorem witness_ElapsedCountFits :
    toTicks Config.default 65535 ≤ 2 ^ Config.default.tickBits - 1 ∧
    (2 ^ Config.default.tickBits - 1 < toTicks Config.default 65536 ∧ Config.default.timerOverflow = .saturate) ∧
    elapsedCount { Config.default with timerOverflow := .wrap } 65537 = 1 := by decide

/-- A sound state with a word to take, and the state that follows. -/
theorem sound_fetching : Sound (State.reset.withFetchWord 32 0x1000FFFF) := by
  constructor <;> first | decide | exact fun _ => ⟨rfl, rfl, rfl, rfl⟩

theorem witness_StepKeepsInvariant :
    Sound (State.reset.withFetchWord 32 0x1000FFFF) ∧
    ∃ t, step (State.reset.withFetchWord 32 0x1000FFFF) = .next t ∧ t.mb = ⟨true, 65535, .falling⟩ :=
  ⟨sound_fetching, _, rfl, by decide⟩

theorem witness_ResetMeetsInvariant :
    configLegal { Config.default with marginUs := 600, tickBits := 24, resetCountBits := 1 } = true := by decide

theorem witness_ConfigurationFixed :
    ∃ t, step (State.reset.withFetchWord 32 0xF0000000) = .next t ∧ t.trace = [.timerReset] := ⟨_, rfl, by decide⟩

theorem witness_TraceOnlyGrows :
    ∃ t, step (State.reset.withFetchWord 32 0x1000FFFF) = .next t ∧ t.trace = [.timerReset] := ⟨_, rfl, by decide⟩

/-- A step for each clause: a capture, a READ, a TXSTEP that enables the path, a POLL that counts a reset, a
COMPLETE, a TXREQ that stores a frame. -/
theorem witness_WritersPerField :
    (∃ t, exec (.edge .falling 7) State.reset = .next t ∧ t.mb.mbElapsed ≠ State.reset.mb.mbElapsed ∧
      t.mb.mbPending = true ∧ State.reset.mb.mbPending = false) ∧
    (∃ t, exec (.read .status) State.reset = .next t) ∧
    (∃ t, exec .txstep (sending 99) = .next t ∧ t.cap.capEnabled ≠ (sending 99).cap.capEnabled) ∧
    (∃ t, exec .poll (pending .falling 7 State.reset) = .next t ∧
      t.rx.resetCount ≠ (pending .falling 7 State.reset).rx.resetCount) ∧
    (∃ t, exec .complete (waiting s1Frame 1) = .next t ∧ t.rx.resetCount ≠ (waiting s1Frame 1).rx.resetCount) ∧
    ∃ t, exec (.txreq 0xAA 0x0028) State.reset = .next t ∧ t.tx.txFrame ≠ State.reset.tx.txFrame :=
  ⟨⟨_, rfl, by decide, by decide, by decide⟩, ⟨_, rfl⟩, ⟨_, rfl, by decide⟩, ⟨_, rfl, by decide⟩,
    ⟨_, rfl, by decide⟩, _, rfl, by decide⟩

/-- A step that hands a command over, and one that hands none. -/
theorem witness_OnlyCompleteDispatches :
    (∃ t, exec .complete (waiting s1Frame 1) = .next t ∧
      decodedCommands (newEvents (waiting s1Frame 1) t) = [0x0028]) ∧
    ∃ t, exec .complete (waiting Frame.zero 1) = .next t ∧ decodedCommands (newEvents (waiting Frame.zero 1) t) = [] :=
  ⟨⟨_, rfl, by decide⟩, _, rfl, by decide⟩

/-- Each of the four causes of a timer reset, and a step without one. -/
theorem witness_TimerResetExactlyWhen :
    (∃ t, exec (.edge .falling 0) State.reset = .next t ∧ Event.timerReset ∈ newEvents State.reset t) ∧
    (∃ t, exec .complete (waiting s1Frame 0) = .next t ∧ Event.timerReset ∈ newEvents (waiting s1Frame 0) t) ∧
    (∃ t, exec .txstep (sending 99) = .next t ∧ Event.timerReset ∈ newEvents (sending 99) t) ∧
    (∃ t, exec .reset (sending 40) = .next t ∧ Event.timerReset ∈ newEvents (sending 40) t) ∧
    ∃ t, exec .txstep (sending 98) = .next t ∧ Event.timerReset ∉ newEvents (sending 98) t :=
  ⟨⟨_, rfl, by decide⟩, ⟨_, rfl, by decide⟩, ⟨_, rfl, by decide⟩, ⟨_, rfl, by decide⟩, _, rfl, by decide⟩

/-- A step that leaves nothing pending, and one that captures. -/
theorem witness_StaleMailboxUnread :
    State.reset.mb.mbPending = false ∧ (∃ t, exec .poll State.reset = .next t ∧ t.mb.mbPending = false) ∧
    ∃ t, exec (.edge .falling 7) State.reset = .next t ∧ t.mb.mbPending = true :=
  ⟨rfl, ⟨_, rfl, by decide⟩, _, rfl, by decide⟩

theorem witness_ResetCountUnread :
    ∃ t, exec .poll (pending .falling 7 State.reset) = .next t ∧ t.rx.resetCount = 1 := ⟨_, rfl, by decide⟩

/-- Out of step both ways: watching Falling at a Rising edge, and Rising at a Falling edge. -/
theorem witness_OutOfStepLosesOneEdge :
    (State.reset.cap.capEnabled = true ∧ State.reset.cap.capPolarity = Dir.rising.flip) ∧
    (pending .falling 0 State.reset).cap.capEnabled = true ∧
    (pending .falling 0 State.reset).cap.capPolarity = Dir.falling.flip := by decide

/-- A turn with a frame waiting and a turn without. -/
theorem witness_ForegroundTurnCompletes :
    (State.reset.tx.txActive = false ∧ State.reset.tx.carrier = false) ∧
    (waiting s1Frame 1).tx.txActive = false ∧ (waiting s1Frame 1).tx.carrier = false ∧
    (waiting s1Frame 1).rx.rxState = .commandReceived := by decide

theorem witness_LineModelCountsIntervals :
    State.reset.cap.capEnabled = true ∧ State.reset.cap.capPolarity = .falling := by decide

/-- Both accepted addresses at construction. -/
theorem witness_RoundTrip :
    Sound State.reset ∧ State.reset.rx.rxState = .reset ∧ State.reset.mb.mbPending = false ∧
    State.reset.cap.capEnabled = true ∧ State.reset.cap.capPolarity = .falling ∧ State.reset.tx.txActive = false ∧
    ((0xAA : Byte) = State.reset.cfg.devAddr ∨ (0xAA : Byte) = 0xFF) ∧
    ((0xFF : Byte) = State.reset.cfg.devAddr ∨ (0xFF : Byte) = 0xFF) ∧
    toTicks State.reset.cfg State.reset.cfg.shortUs < lo State.reset.cfg State.reset.cfg.longUs ∧
    Config.default.trainUs = State.reset.cfg.trainUs ∧ Config.default.silenceUs = State.reset.cfg.silenceUs ∧
    Config.default.shortUs = State.reset.cfg.shortUs ∧ Config.default.longUs = State.reset.cfg.longUs :=
  ⟨sound_reset, by decide⟩

end Sys2Proof.Machine.Tests
end

section
/-! SUPPORT. What the decoder accepts: one equivalence per format (spec/30_encoding.md R83), and that every decoded
step is well formed (R84). -/

namespace Sys2Proof

variable {w : Word} {i j : Instr}

theorem decodeBare_eq_ok : decodeBare w i = .ok j ↔ w.extractLsb' 0 28 = 0 ∧ i = j := by
  unfold decodeBare
  split <;> simp_all

theorem decodeEdge_eq_ok {tickBits : Nat} :
    decodeEdge tickBits w = .ok j ↔
      w.extractLsb' 25 3 = 0 ∧ (w.extractLsb' 0 24).toNat < 2 ^ tickBits ∧
        .edge (Dir.ofBit (w.getLsbD 24)) (w.extractLsb' 0 24) = j := by
  unfold decodeEdge
  split
  · simp_all
  · split <;> simp_all

theorem decodeTxreq_eq_ok :
    decodeTxreq w = .ok j ↔
      w.extractLsb' 24 4 = 0 ∧ .txreq (w.extractLsb' 16 8) (w.extractLsb' 0 16) = j := by
  unfold decodeTxreq
  split <;> simp_all

theorem decodeRead_eq_ok :
    decodeRead w = .ok j ↔
      w.extractLsb' 3 25 = 0 ∧ ∃ v, View.ofIndex (w.extractLsb' 0 3) = some v ∧ .read v = j := by
  unfold decodeRead
  split
  · simp_all
  · cases View.ofIndex (w.extractLsb' 0 3) <;> simp_all

/-- The decoder accepts a word in one of its four formats, the opcode choosing it (R75, R83). -/
theorem decode_cases {tickBits : Nat} (h : decode tickBits w = .ok i) :
    (opcodeField w = 0x1 ∧ decodeEdge tickBits w = .ok i) ∨
    (opcodeField w = 0x2 ∧ decodeBare w .poll = .ok i) ∨
    (opcodeField w = 0x3 ∧ decodeBare w .complete = .ok i) ∨
    (opcodeField w = 0x4 ∧ decodeTxreq w = .ok i) ∨
    (opcodeField w = 0x5 ∧ decodeBare w .txstep = .ok i) ∨
    (opcodeField w = 0x6 ∧ decodeRead w = .ok i) ∨
    (opcodeField w = 0xF ∧ decodeBare w .reset = .ok i) := by
  simp only [decode] at h
  split_ifs at h <;> simp_all

/-- A decoded step is well formed: the decoder tests the width of an elapsed count (R83, R84). -/
theorem decode_wellFormed {tickBits : Nat} (h : decode tickBits w = .ok i) : i.wellFormed tickBits = true := by
  rcases decode_cases h with ⟨-, h⟩ | ⟨-, h⟩ | ⟨-, h⟩ | ⟨-, h⟩ | ⟨-, h⟩ | ⟨-, h⟩ | ⟨-, h⟩
  · obtain ⟨-, hwidth, rfl⟩ := decodeEdge_eq_ok.1 h
    exact decide_eq_true hwidth
  · obtain ⟨-, rfl⟩ := decodeBare_eq_ok.1 h
    rfl
  · obtain ⟨-, rfl⟩ := decodeBare_eq_ok.1 h
    rfl
  · obtain ⟨-, rfl⟩ := decodeTxreq_eq_ok.1 h
    rfl
  · obtain ⟨-, rfl⟩ := decodeBare_eq_ok.1 h
    rfl
  · obtain ⟨-, v, -, rfl⟩ := decodeRead_eq_ok.1 h
    rfl
  · obtain ⟨-, rfl⟩ := decodeBare_eq_ok.1 h
    rfl

end Sys2Proof
end

section
/-! SUPPORT. The fields after the composed operations of COMPLETE and TXSTEP, the condition of POLL and TXREQ
(spec/44_capture_dispatch.md R208), the saturating increment as a number, and what construction answers. -/

namespace Sys2Proof.Machine

section Composed
variable (s : State)

@[simp] theorem dispatchFrame_cfg : (dispatchFrame s).cfg = s.cfg := by unfold dispatchFrame; split <;> rfl
@[simp] theorem dispatchFrame_mb : (dispatchFrame s).mb = s.mb := by unfold dispatchFrame; split <;> rfl
@[simp] theorem dispatchFrame_cap : (dispatchFrame s).cap = s.cap := by unfold dispatchFrame; split <;> rfl
@[simp] theorem dispatchFrame_tx : (dispatchFrame s).tx = s.tx := by unfold dispatchFrame; split <;> rfl
@[simp] theorem dispatchFrame_stimulus : (dispatchFrame s).stimulus = s.stimulus := by
  unfold dispatchFrame; split <;> rfl

@[simp] theorem discardFrame_cfg : (discardFrame s).cfg = s.cfg := rfl
@[simp] theorem discardFrame_rx : (discardFrame s).rx = clearRx s.rx := rfl
@[simp] theorem discardFrame_mb : (discardFrame s).mb = s.mb := rfl
@[simp] theorem discardFrame_cap : (discardFrame s).cap = s.cap := rfl
@[simp] theorem discardFrame_tx : (discardFrame s).tx = s.tx := rfl
@[simp] theorem discardFrame_stimulus : (discardFrame s).stimulus = s.stimulus := rfl
@[simp] theorem discardFrame_trace : (discardFrame s).trace = s.trace := rfl


@[simp] theorem txEmit_cfg : (txEmit s).cfg = s.cfg := by simp [txEmit]
@[simp] theorem txEmit_rx : (txEmit s).rx = s.rx := by simp [txEmit]
@[simp] theorem txEmit_mb : (txEmit s).mb = s.mb := by simp [txEmit]
@[simp] theorem txEmit_cap : (txEmit s).cap = s.cap := by simp [txEmit]
@[simp] theorem txEmit_stimulus : (txEmit s).stimulus = s.stimulus := by simp [txEmit]
@[simp] theorem txEmit_trace :
    (txEmit s).trace = s.trace ++ [intervalEvent (pulse s.cfg s.tx.txFrame s.tx.txIndex.toNat)] := by
  simp [txEmit]

/-- With the carrier off before it, an emitted interval only counts (R174, R175). -/
theorem txEmit_tx (h : s.tx.carrier = false) : (txEmit s).tx = { s.tx with txIndex := s.tx.txIndex + 1 } := by
  simp [txEmit, emitInterval_tx, h]

@[simp] theorem txFinish_cfg : (txFinish s).cfg = s.cfg := rfl
@[simp] theorem txFinish_rx : (txFinish s).rx = s.rx := rfl
@[simp] theorem txFinish_mb : (txFinish s).mb = { s.mb with mbPending := false } := rfl
@[simp] theorem txFinish_cap : (txFinish s).cap = ⟨.falling, true⟩ := rfl
@[simp] theorem txFinish_tx : (txFinish s).tx = { s.tx with txActive := false, txIndex := 0 } := rfl
@[simp] theorem txFinish_stimulus : (txFinish s).stimulus = s.stimulus := rfl
@[simp] theorem txFinish_trace : (txFinish s).trace = s.trace ++ [.timerReset, .txDone] := by
  simp [txFinish]

/-- COMPLETE appends what the validator's answer is reported by, one event (R130). -/
theorem dispatchFrame_trace : ∃ ev, (dispatchFrame s).trace = s.trace ++ [ev] := by
  rcases dispatchFrame_cases s with ⟨c, -, h⟩ | ⟨-, h⟩
  · exact ⟨.cmdDecoded c, by simp [h]⟩
  · exact ⟨_, by rw [h, State.emit_trace]⟩

/-- COMPLETE keeps the counter or clears it (R130, R132). -/
theorem dispatchFrame_resetCount :
    (dispatchFrame s).rx.resetCount = 0 ∨ (dispatchFrame s).rx.resetCount = s.rx.resetCount := by
  rcases dispatchFrame_cases s with ⟨c, -, h⟩ | ⟨-, h⟩
  · exact .inl (by rw [h]; rfl)
  · exact .inr (by rw [h]; rfl)

end Composed

/-- The condition of POLL and TXREQ (R208). -/
theorem foregroundFree_iff (s : State) :
    foregroundFree s = true ↔ s.tx.txActive = false ∧ s.rx.rxState ≠ .commandReceived := by
  simp [foregroundFree]

/-- `sat_inc` as a number, at a width the counter's 16 bits hold (R13, R27). -/
theorem satInc_toNat {bits : Nat} (h : bits ≤ 16) (v : BitVec 16) :
    (satInc bits v).toNat = min (v.toNat + 1) (2 ^ bits - 1) := by
  have hpow : 2 ^ bits ≤ 2 ^ 16 := Nat.pow_le_pow_right (by decide) h
  rw [satInc, BitVec.toNat_ofNat]
  exact Nat.mod_eq_of_lt (by omega)

/-- The windows of all five classes fit when those of the four durations do (R9, R103). -/
theorem forall_nominal_hi_lt_iff (c : Config) (n : Nat) :
    (∀ k, hi c (nominalUs c k) < n) ↔
      hi c c.trainUs < n ∧ hi c c.silenceUs < n ∧ hi c c.shortUs < n ∧ hi c c.longUs < n := by
  constructor
  · intro h
    exact ⟨h .trainingPulse, h .silenceAfterTraining, h .shortMark, h .longSpace⟩
  · rintro ⟨htrain, hsilence, hshort, hlong⟩ (_ | _ | _ | _ | _)
    exacts [htrain, hsilence, hshort, hlong, hshort]

theorem construct_of_legal {c : Config} (h : configLegal c = true) : construct c = .next (State.initial c) := by
  simp [construct, h]

theorem construct_of_illegal {c : Config} (h : configLegal c = false) : construct c = .refused .illegalConfig := by
  simp [construct, h]

/-- Construction answers a block exactly at a legal configuration (R9, R271). -/
theorem construct_eq_next_iff (c : Config) : construct c = .next (State.initial c) ↔ configLegal c = true := by
  cases h : configLegal c with
  | true => simp [construct_of_legal h]
  | false => simp [construct_of_illegal h]

end Sys2Proof.Machine
end

section
/-! SUPPORT. What every meaning leaves alone: the configuration, the input queue and the events already emitted. -/

namespace Sys2Proof.Machine

variable {i : Instr} {s t : State}

/-- No meaning writes the configuration or the input queue, and the trace is only appended to (R10, R15, R55). -/
theorem exec_frame (h : exec i s = .next t) :
    t.cfg = s.cfg ∧ t.stimulus = s.stimulus ∧ ∃ es, t.trace = s.trace ++ es := by
  cases i with
  | edge d e =>
    rcases execEdge_cases h with ⟨-, rfl⟩ | ⟨-, -, rfl⟩ | ⟨-, -, rfl⟩
    · exact ⟨rfl, rfl, _, rfl⟩
    · exact ⟨rfl, rfl, _, rfl⟩
    · exact ⟨by simp, by simp, _, captureEdge_trace d e s⟩
  | poll =>
    rcases execPoll_cases h with ⟨-, rfl⟩ | ⟨-, -, rfl⟩ | ⟨-, -, rfl⟩
    · exact ⟨rfl, rfl, [], by simp⟩
    · exact ⟨rfl, rfl, [], by simp⟩
    · obtain ⟨hcfg, -, -, -, hstimulus, es, htrace, -⟩ := receiveEvent_frame s.mb.mbDir s.mb.mbElapsed (take s)
      exact ⟨hcfg, hstimulus, es, htrace⟩
  | complete =>
    rcases execComplete_cases h with ⟨-, rfl⟩ | ⟨-, rfl⟩
    · exact ⟨rfl, rfl, [], by simp⟩
    · obtain ⟨ev, hev⟩ := dispatchFrame_trace s
      exact ⟨by simp, by simp, [ev, .timerReset], by simp [hev]⟩
  | txreq a c =>
    rcases execTxreq_cases h with ⟨-, rfl⟩ | ⟨-, rfl⟩
    · exact ⟨rfl, rfl, [], by simp⟩
    · exact ⟨rfl, rfl, [], by simp⟩
  | txstep =>
    rcases execTxstep_cases h with ⟨-, rfl⟩ | ⟨-, -, rfl⟩ | ⟨-, -, rfl⟩
    · exact ⟨rfl, rfl, [], by simp⟩
    · exact ⟨by simp, by simp, _, txEmit_trace s⟩
    · exact ⟨by simp, by simp, _, txFinish_trace s⟩
  | read v =>
    obtain rfl := execRead_cases h
    exact ⟨rfl, rfl, [], by simp⟩
  | reset =>
    obtain rfl := execReset_cases h
    exact ⟨rfl, rfl, _, rfl⟩

/-- The same of a step: only the queue moves on (R10, R15). -/
theorem step_frame (h : step s = .next t) : t.cfg = s.cfg ∧ ∃ es, t.trace = s.trace ++ es := by
  rcases step_cases h with ⟨-, rfl⟩ | ⟨w, ws, r, -, -, rfl⟩ | ⟨w, ws, i, -, -, hexec⟩
  · exact ⟨rfl, [], by simp⟩
  · exact ⟨rfl, [], by simp⟩
  · obtain ⟨hcfg, -, es, htrace⟩ := exec_frame hexec
    exact ⟨hcfg, es, htrace⟩

end Sys2Proof.Machine
end

section
/-! SUPPORT. The invariant `Sound` in three independent parts, one per group of fields, and what keeps each part. -/

namespace Sys2Proof.Machine

/-- The part of `Sound` about the receive fields, at a counter of `bits` bits (R25, R26, R27). -/
structure RxSound (bits : Nat) (r : Rx) : Prop where
  /-- R26, first half. -/
  scratch : r.rxState = .reset ∨ r.rxState = .trainingReceived → scratchEmpty r
  /-- R25, R127. -/
  assembling : r.rxState = .receivingBits → r.byteCount.toNat ≤ 5
  /-- R26, second half. -/
  frameComplete : r.rxState = .commandReceived → r.byteCount = 6 ∧ r.bitCount = 0 ∧ r.curByte = 0
  /-- R27. -/
  countWidth : r.resetCount.toNat < 2 ^ bits

/-- The part of `Sound` about the mailbox, at the watched polarity `polarity` (R29, R214). -/
structure MailboxSound (tickBits : Nat) (polarity : Dir) (m : Mailbox) : Prop where
  /-- R29. -/
  elapsedWidth : m.mbElapsed.toNat < 2 ^ tickBits
  /-- R214. -/
  alternation : m.mbPending = true → polarity = m.mbDir.flip

/-- The part of `Sound` about the transmit fields, at the receive-path enable `capEnabled` (R32, R35, R37). -/
structure TxSound (capEnabled : Bool) (x : Tx) : Prop where
  /-- R32, R173, R178. -/
  pathPaired : capEnabled = !x.txActive
  /-- R35. -/
  indexRange : x.txIndex.toNat ≤ 99
  /-- R35. -/
  indexIdle : x.txActive = false → x.txIndex = 0
  /-- R37. -/
  carrierOff : x.carrier = false

/-- The invariant is its three parts, a legal configuration, and no transmission while a frame waits (R208). -/
theorem sound_iff (s : State) :
    Sound s ↔
      configLegal s.cfg = true ∧ RxSound s.cfg.resetCountBits s.rx ∧
      MailboxSound s.cfg.tickBits s.cap.capPolarity s.mb ∧ TxSound s.cap.capEnabled s.tx ∧
      (s.tx.txActive = true → s.rx.rxState ≠ .commandReceived) := by
  constructor
  · intro h
    exact ⟨h.cfgLegal, ⟨h.scratch, h.assembling, h.frameComplete, h.countWidth⟩, ⟨h.elapsedWidth, h.alternation⟩,
      ⟨h.pathPaired, h.indexRange, h.indexIdle, h.carrierOff⟩, h.noFrameWaits⟩
  · rintro ⟨hcfg, hrx, hmb, htx, hwait⟩
    exact ⟨hcfg, hrx.scratch, hrx.assembling, hrx.frameComplete, hrx.countWidth, hmb.elapsedWidth, hmb.alternation,
      htx.pathPaired, htx.indexRange, htx.indexIdle, htx.carrierOff, hwait⟩

/-- The invariant does not look at the queue, the trace or the result. -/
theorem sound_congr {s t : State} (hcfg : t.cfg = s.cfg) (hrx : t.rx = s.rx) (hmb : t.mb = s.mb)
    (hcap : t.cap = s.cap) (htx : t.tx = s.tx) : Sound t ↔ Sound s := by
  rw [sound_iff, sound_iff, hcfg, hrx, hmb, hcap, htx]

@[simp] theorem sound_withResult (s : State) (r : Result) : Sound (s.withResult r) ↔ Sound s :=
  sound_congr rfl rfl rfl rfl rfl

@[simp] theorem sound_withStimulus (s : State) (ws : List Word) : Sound (s.withStimulus ws) ↔ Sound s :=
  sound_congr rfl rfl rfl rfl rfl

@[simp] theorem sound_emit (s : State) (e : Event) : Sound (s.emit e) ↔ Sound s :=
  sound_congr rfl rfl rfl rfl rfl

section Receive
variable {bits : Nat} {r : Rx}

/-- Reset with an empty scratch buffer, whatever the counter holds within its width (R26, R44, R128). -/
theorem rxSound_emptyReset {n : BitVec 16} (h : n.toNat < 2 ^ bits) :
    RxSound bits ⟨.reset, Frame.zero, 0, 0, 0, n⟩ where
  scratch _ := ⟨rfl, rfl, rfl, rfl⟩
  assembling h := nomatch h
  frameComplete h := nomatch h
  countWidth := h

/-- A training pulse taken in Reset leaves the scratch buffer empty (R123). -/
theorem RxSound.toTraining (h : RxSound bits r) (hs : r.rxState = .reset) :
    RxSound bits { r with rxState := .trainingReceived } where
  scratch _ := h.scratch (.inl hs)
  assembling h := nomatch h
  frameComplete h := nomatch h
  countWidth := h.countWidth

/-- The silence after training starts the bits from an empty scratch buffer (R124). -/
theorem RxSound.toReceivingBits (h : RxSound bits r) (hs : r.rxState = .trainingReceived) :
    RxSound bits { r with rxState := .receivingBits } where
  scratch h := by simp at h
  assembling _ := by
    obtain ⟨-, -, -, hbytes⟩ := h.scratch (.inr hs)
    simp [hbytes]
  frameComplete h := nomatch h
  countWidth := h.countWidth

/-- An appended bit keeps at most five bytes until the sixth, which completes the frame (R25, R26, R127). -/
theorem rxSound_appendBit (h : RxSound bits r) (hs : r.rxState = .receivingBits) (b : Bool) :
    RxSound bits (appendBit b r) := by
  have hbytes := h.assembling hs
  by_cases hlast : r.bitCount.toNat + 1 = 8
  · have hsucc : (r.byteCount + 1).toNat = r.byteCount.toNat + 1 :=
      BitVec.toNat_add_of_lt (y := 1) (show r.byteCount.toNat + 1 < 8 by omega)
    rw [appendBit_last r b hlast]
    by_cases hsixth : r.byteCount.toNat + 1 = 6
    · rw [if_pos hsixth]
      exact
        { scratch := by simp
          assembling := by simp
          frameComplete := fun _ => ⟨BitVec.eq_of_toNat_eq (hsucc.trans hsixth), rfl, rfl⟩
          countWidth := h.countWidth }
    · rw [if_neg hsixth, hs]
      exact
        { scratch := by simp
          assembling := fun _ => by simp only [hsucc]; omega
          frameComplete := by simp
          countWidth := h.countWidth }
  · rw [appendBit_within r b hlast]
    exact
      { scratch := by simp [hs]
        assembling := h.assembling
        frameComplete := by simp [hs]
        countWidth := h.countWidth }

/-- Every transition of a taken event keeps the receive fields sound (R120 to R128). -/
theorem rxSound_receiveEvent {s : State} (h : RxSound s.cfg.resetCountBits s.rx) (d : Dir) (e : Ticks) :
    RxSound s.cfg.resetCountBits (receiveEvent d e s).rx := by
  rcases receiveEvent_cases d e s with
    ⟨hs, -, -, heq⟩ | ⟨hs, -, -, heq⟩ | ⟨-, -, -, heq⟩ | ⟨hs, -, b, heq⟩ | ⟨-, k, heq⟩ | ⟨-, heq⟩ <;> rw [heq]
  · exact h.toTraining hs
  · exact h.toReceivingBits hs
  · exact h
  · exact rxSound_appendBit h hs b
  · exact rxSound_emptyReset (satInc_lt _ _)
  · exact h

/-- Discarding the scratch buffer keeps the counter's width (R130, R172). -/
theorem rxSound_clearRx (h : r.resetCount.toNat < 2 ^ bits) : RxSound bits (clearRx r) := rxSound_emptyReset h

/-- Both policies of TXREQ keep the receive fields sound (R172). -/
theorem rxSound_txreqRx (h : RxSound bits r) (p : TxRxPolicy) : RxSound bits (txreqRx p r) := by
  cases p with
  | reset => exact rxSound_clearRx h.countWidth
  | preserve => exact h

/-- No policy of TXREQ makes a frame wait (R172). -/
theorem txreqRx_ne_commandReceived (p : TxRxPolicy) (h : r.rxState ≠ .commandReceived) :
    (txreqRx p r).rxState ≠ .commandReceived := by
  cases p with
  | reset => simp [txreqRx]
  | preserve => exact h

end Receive

/-- With nothing pending, any polarity may be watched (R207, R214). -/
theorem MailboxSound.empty {tickBits : Nat} {p : Dir} {m : Mailbox} (h : MailboxSound tickBits p m) (q : Dir) :
    MailboxSound tickBits q { m with mbPending := false } where
  elapsedWidth := h.elapsedWidth
  alternation h := nomatch h

/-- A captured edge was of the watched polarity, and the other one is watched after it (R203, R214). -/
theorem mailboxSound_captured {tickBits : Nat} {e : Ticks} (h : e.toNat < 2 ^ tickBits) (d : Dir) :
    MailboxSound tickBits d.flip ⟨true, e, d⟩ where
  elapsedWidth := h
  alternation _ := rfl

/-- An idle transmitter with the receive path enabled (R32, R35, R178). -/
theorem TxSound.idle {capEnabled : Bool} {x : Tx} (h : TxSound capEnabled x) :
    TxSound true { x with txActive := false, txIndex := 0 } where
  pathPaired := rfl
  indexRange := Nat.zero_le _
  indexIdle _ := rfl
  carrierOff := h.carrierOff

/-- A transmission starts at its first interval with the receive path disabled (R170, R173). -/
theorem TxSound.start {capEnabled : Bool} {x : Tx} (h : TxSound capEnabled x) (f : Frame) :
    TxSound false { x with txFrame := f, txActive := true, txIndex := 0 } where
  pathPaired := rfl
  indexRange := Nat.zero_le _
  indexIdle h := nomatch h
  carrierOff := h.carrierOff

/-- An interval counted within the train keeps the index in its range (R35, R174). -/
theorem TxSound.count {capEnabled : Bool} {x : Tx} (h : TxSound capEnabled x) (ha : x.txActive = true)
    (hle : x.txIndex.toNat ≤ 98) : TxSound capEnabled { x with txIndex := x.txIndex + 1 } where
  pathPaired := h.pathPaired
  indexRange := by
    have hsucc : (x.txIndex + 1).toNat = x.txIndex.toNat + 1 :=
      BitVec.toNat_add_of_lt (y := 1) (show x.txIndex.toNat + 1 < 128 by omega)
    simp only [hsucc]
    omega
  indexIdle h := by simp [ha] at h
  carrierOff := h.carrierOff

end Sys2Proof.Machine
end

section
/-! SUPPORT. The invariant is kept by every instruction that the decoder can give. -/

namespace Sys2Proof.Machine

variable {s t : State}

/-- EDGE keeps the invariant when its count fits (R200, R203, R214). -/
theorem Sound.of_execEdge {d : Dir} {e : Ticks} (hs : Sound s) (he : e.toNat < 2 ^ s.cfg.tickBits)
    (h : execEdge d e s = .next t) : Sound t := by
  rcases execEdge_cases h with ⟨-, rfl⟩ | ⟨-, -, rfl⟩ | ⟨-, hd, rfl⟩
  · simpa using hs
  · simpa using hs
  · obtain ⟨hcfg, hrx, -, htx, hwait⟩ := (sound_iff s).1 hs
    rw [sound_withResult, sound_iff, captureEdge_cfg, captureEdge_rx, captureEdge_mb, captureEdge_cap,
      captureEdge_tx]
    exact ⟨hcfg, hrx, hd ▸ mailboxSound_captured he d, htx, hwait⟩

/-- POLL keeps the invariant: it runs with no transmission in progress (R120, R208). -/
theorem Sound.of_execPoll (hs : Sound s) (h : execPoll s = .next t) : Sound t := by
  rcases execPoll_cases h with ⟨-, rfl⟩ | ⟨-, -, rfl⟩ | ⟨hen, -, rfl⟩
  · simpa using hs
  · simpa using hs
  · obtain ⟨hcfg, hrx, hmb, htx, -⟩ := (sound_iff s).1 hs
    obtain ⟨hidle, -⟩ := (foregroundFree_iff s).1 hen
    have hrx' := rxSound_receiveEvent (s := take s) hrx s.mb.mbDir s.mb.mbElapsed
    obtain ⟨ecfg, emb, ecap, etx, -⟩ := receiveEvent_frame s.mb.mbDir s.mb.mbElapsed (take s)
    rw [sound_withResult, sound_iff, ecfg, emb, ecap, etx]
    exact ⟨hcfg, hrx', hmb.empty _, htx, by simp [hidle]⟩

/-- COMPLETE keeps the invariant: it ends in Reset with nothing pending (R130, R207). -/
theorem Sound.of_execComplete (hs : Sound s) (h : execComplete s = .next t) : Sound t := by
  rcases execComplete_cases h with ⟨-, rfl⟩ | ⟨-, rfl⟩
  · simpa using hs
  · obtain ⟨hcfg, hrx, hmb, htx, -⟩ := (sound_iff s).1 hs
    have hcount : (dispatchFrame s).rx.resetCount.toNat < 2 ^ s.cfg.resetCountBits := by
      rcases dispatchFrame_resetCount s with h0 | hkeep
      · simp [h0]
      · exact hkeep ▸ hrx.countWidth
    rw [sound_withResult, sound_iff]
    simp only [rearm_cfg, rearm_rx, rearm_mb, rearm_cap, rearm_tx, discardFrame_cfg, discardFrame_rx,
      discardFrame_mb, discardFrame_cap, discardFrame_tx, dispatchFrame_cfg, dispatchFrame_mb, dispatchFrame_cap,
      dispatchFrame_tx]
    exact ⟨hcfg, rxSound_clearRx hcount, hmb.empty _, htx, by simp⟩

/-- TXREQ keeps the invariant: it disables the receive path and starts with no frame waiting (R170, R173). -/
theorem Sound.of_execTxreq {a : Byte} {c : Command} (hs : Sound s) (h : execTxreq a c s = .next t) : Sound t := by
  rcases execTxreq_cases h with ⟨-, rfl⟩ | ⟨hen, rfl⟩
  · simpa using hs
  · obtain ⟨hcfg, hrx, hmb, htx, -⟩ := (sound_iff s).1 hs
    obtain ⟨-, hno⟩ := (foregroundFree_iff s).1 hen
    rw [sound_withResult, sound_iff]
    exact ⟨hcfg, rxSound_txreqRx hrx _, hmb, htx.start _, fun _ => txreqRx_ne_commandReceived _ hno⟩

/-- TXSTEP keeps the invariant (R174, R178). -/
theorem Sound.of_execTxstep (hs : Sound s) (h : execTxstep s = .next t) : Sound t := by
  obtain ⟨hcfg, hrx, hmb, htx, hwait⟩ := (sound_iff s).1 hs
  rcases execTxstep_cases h with ⟨-, rfl⟩ | ⟨ha, hle, rfl⟩ | ⟨-, -, rfl⟩
  · simpa using hs
  · rw [sound_withResult, sound_iff, txEmit_cfg, txEmit_rx, txEmit_mb, txEmit_cap, txEmit_tx s htx.carrierOff]
    exact ⟨hcfg, hrx, hmb, htx.count ha hle, hwait⟩
  · rw [sound_withResult, sound_iff, txFinish_cfg, txFinish_rx, txFinish_mb, txFinish_cap, txFinish_tx]
    exact ⟨hcfg, hrx, hmb.empty _, htx.idle, by simp⟩

/-- The reset values of R44 are sound at a legal configuration. -/
theorem sound_of_resetValues (hcfg : configLegal s.cfg = true) (hrx : s.rx = Rx.reset) (hmb : s.mb = Mailbox.reset)
    (hcap : s.cap = Capture.reset) (htx : s.tx = Tx.reset) : Sound s := by
  rw [sound_iff, hrx, hmb, hcap, htx]
  exact ⟨hcfg, rxSound_emptyReset (Nat.two_pow_pos _), ⟨Nat.two_pow_pos _, nofun⟩,
    ⟨rfl, Nat.zero_le _, fun _ => rfl, rfl⟩, nofun⟩

/-- A well-formed instruction keeps the invariant. -/
theorem Sound.of_exec {i : Instr} (hs : Sound s) (hi : i.wellFormed s.cfg.tickBits = true)
    (h : exec i s = .next t) : Sound t := by
  cases i with
  | edge d e => exact hs.of_execEdge (of_decide_eq_true hi) h
  | poll => exact hs.of_execPoll h
  | complete => exact hs.of_execComplete h
  | txreq a c => exact hs.of_execTxreq h
  | txstep => exact hs.of_execTxstep h
  | read v =>
    obtain rfl := execRead_cases h
    simpa using hs
  | reset =>
    obtain rfl := execReset_cases h
    exact sound_of_resetValues hs.cfgLegal rfl rfl rfl rfl

end Sys2Proof.Machine
end

section
/-! The obligations of spec/00_scope.md. -/

namespace Sys2Proof.Machine

/-- Settles O45: the instruction a step runs is well formed, and every well-formed instruction keeps `Sound`. -/
theorem stepKeepsInvariant : Obligations.StepKeepsInvariant := by
  intro s t hs h
  rcases step_cases h with ⟨-, rfl⟩ | ⟨w, ws, r, -, -, rfl⟩ | ⟨w, ws, i, -, hdecode, hexec⟩
  · exact hs
  · simpa using hs
  · have hs' : Sound (s.withStimulus ws) := (sound_withStimulus s ws).2 hs
    exact hs'.of_exec (decode_wellFormed hdecode) hexec

/-- Settles O47, from what no step writes. -/
theorem configurationFixed : Obligations.ConfigurationFixed :=
  fun _ _ h => (step_frame h).1

/-- Settles O50, from the events a step appends. -/
theorem traceOnlyGrows : Obligations.TraceOnlyGrows :=
  fun _ _ h => (step_frame h).2

/-- Settles O8, from what the fetch takes off the queue. -/
theorem stepRefusesIllFormedWord : Obligations.StepRefusesIllFormedWord := by
  intro s w ws r hstimulus hdecode
  simp only [step, fetchWord_cons s hstimulus, hdecode]
  rfl

/-- Settles O22, from the saturating increment as a number. -/
theorem resetCounterSaturates : Obligations.ResetCounterSaturates :=
  fun _ s hbits => satInc_toNat hbits s.rx.resetCount

/-- Settles O40: construction tests exactly `configLegal`, whose ranges are those of R8 and R9. -/
theorem constructionNeedsLegalConfig : Obligations.ConstructionNeedsLegalConfig := by
  intro c
  constructor
  · rw [construct_eq_next_iff, configLegal_iff, forall_nominal_hi_lt_iff]
    simp only [and_assoc]
  · cases h : configLegal c with
    | true => exact .inl (construct_of_legal h)
    | false => exact .inr (construct_of_illegal h)

end Sys2Proof.Machine
end

section
/-! SUPPORT. The fields and bits of a word read off its number (spec/00_scope.md R12). -/

namespace Sys2Proof

theorem field_eq_of_toNat {w : Word} {start len : Nat} {x : BitVec len}
    (h : w.toNat / 2 ^ start % 2 ^ len = x.toNat) : w.extractLsb' start len = x :=
  BitVec.eq_of_toNat_eq ((field_toNat w start len).trans h)

theorem bit_eq_of_toNat {w : Word} {k : Nat} {b : Bool} (h : w.toNat / 2 ^ k % 2 = b.toNat) :
    w.getLsbD k = b := by
  rw [← BitVec.testBit_toNat, Nat.testBit_eq_decide_div_mod_eq, h]
  cases b <;> rfl

/-- The bit of a direction says whether it is Rising (R30, R74). -/
theorem dir_bit_eq_decide (d : Dir) : d.bit = decide (d = .rising) := by cases d <;> rfl

section FourBytes
variable (a b c d : Byte)

/-- Four bytes side by side, the first one highest (R42). -/
theorem fourBytes_toNat :
    (a ++ b ++ c ++ d).toNat = a.toNat * 2 ^ 24 + b.toNat * 2 ^ 16 + c.toNat * 2 ^ 8 + d.toNat := by
  rw [append_toNat, append_toNat, append_toNat]
  omega

theorem fourBytes_first : (a ++ b ++ c ++ d).extractLsb' 24 8 = a :=
  field_eq_of_toNat (by rw [fourBytes_toNat]; omega)

theorem fourBytes_second : (a ++ b ++ c ++ d).extractLsb' 16 8 = b :=
  field_eq_of_toNat (by rw [fourBytes_toNat]; omega)

theorem fourBytes_third : (a ++ b ++ c ++ d).extractLsb' 8 8 = c :=
  field_eq_of_toNat (by rw [fourBytes_toNat]; omega)

theorem fourBytes_fourth : (a ++ b ++ c ++ d).extractLsb' 0 8 = d := BitVec.extractLsb'_append_eq_right

end FourBytes

end Sys2Proof
end

section
/-! SUPPORT. The layout of the observation views (spec/10_state.md R42). -/

namespace Sys2Proof.Machine

/-- STATUS as a number: each field at the place R42 gives it. -/
theorem viewValue_status_toNat (s : State) :
    (viewValue .status s).toNat =
      s.tx.txIndex.toNat * 2 ^ 13 + s.tx.txActive.toNat * 2 ^ 12 + s.cap.capEnabled.toNat * 2 ^ 11 +
        s.cap.capPolarity.bit.toNat * 2 ^ 10 + s.mb.mbDir.bit.toNat * 2 ^ 9 + s.mb.mbPending.toNat * 2 ^ 8 +
        s.rx.byteCount.toNat * 2 ^ 5 + s.rx.bitCount.toNat * 2 ^ 2 + (rxStateCode s.rx.rxState).toNat := by
  simp only [viewValue, statusView, append_toNat, BitVec.toNat_ofBool, BitVec.toNat_zero]
  omega

/-- FRAME_A and TXFRAME_A hold the first four bytes of their buffer, byte 0 highest (R42). -/
theorem firstFourBytes_field (f : Frame) {j : Nat} (hj : j < 4) :
    (f.b0 ++ f.b1 ++ f.b2 ++ f.b3).extractLsb' (24 - 8 * j) 8 = f.get j := by
  interval_cases j
  · exact fourBytes_first _ _ _ _
  · exact fourBytes_second _ _ _ _
  · exact fourBytes_third _ _ _ _
  · exact fourBytes_fourth _ _ _ _

/-- The STATUS value of the reset values: the receive path enabled and nothing else (R44, R82). -/
theorem viewValue_status_of_resetValues {s : State} (hrx : s.rx = Rx.reset) (hmb : s.mb = Mailbox.reset)
    (hcap : s.cap = Capture.reset) (htx : s.tx = Tx.reset) : viewValue .status s = 0x00000800 := by
  simp only [viewValue, statusView, hrx, hmb, hcap, htx]
  rfl

end Sys2Proof.Machine
end

section
/-! SUPPORT. The fields after RESET, and what construction answers (spec/70_reset_and_hazards.md R270, R271). -/

namespace Sys2Proof.Machine

section ResetBlock
variable (s : State)

@[simp] theorem resetBlock_cfg : (resetBlock s).cfg = s.cfg := rfl
@[simp] theorem resetBlock_rx : (resetBlock s).rx = Rx.reset := rfl
@[simp] theorem resetBlock_mb : (resetBlock s).mb = Mailbox.reset := rfl
@[simp] theorem resetBlock_cap : (resetBlock s).cap = Capture.reset := rfl
@[simp] theorem resetBlock_tx : (resetBlock s).tx = Tx.reset := rfl
@[simp] theorem resetBlock_stimulus : (resetBlock s).stimulus = s.stimulus := rfl
@[simp] theorem resetBlock_trace : (resetBlock s).trace = s.trace := rfl

end ResetBlock

/-- Construction answers nothing but the initial state, and only at a legal configuration (R9, R271). -/
theorem construct_cases {c : Config} {t : State} (h : construct c = .next t) :
    configLegal c = true ∧ t = State.initial c := by
  cases hc : configLegal c with
  | true => exact ⟨rfl, (Host.Outcome.next.inj ((construct_of_legal hc).symm.trans h)).symm⟩
  | false => exact nomatch (construct_of_illegal hc).symm.trans h

end Sys2Proof.Machine
end

section
/-! SUPPORT. How each instruction is run in each of its cases: the converses of the inversion lemmas, one equation
per branch. -/

namespace Sys2Proof.Machine

variable {s : State}

/-- Outside its condition of R208 an instruction is `NotEnabled`. -/
theorem exec_of_not_enabled {i : Instr} (h : enabled i s = false) : exec i s = notEnabled s := by
  cases i with
  | edge d e => exact nomatch h
  | poll => exact if_pos h
  | complete => exact if_pos h
  | txreq a c => exact if_pos h
  | txstep => exact if_pos h
  | read v => exact nomatch h
  | reset => exact nomatch h

/-- A disabled receive path drops the edge (R201). -/
theorem exec_edge_of_disabled (d : Dir) (e : Ticks) (h : s.cap.capEnabled = false) :
    exec (.edge d e) s = completed (s.emit (.edgeDropped .disabled)) := if_pos h

/-- An edge of the other polarity raises no interrupt (R202). -/
theorem exec_edge_of_other_polarity {d : Dir} (e : Ticks) (h : s.cap.capEnabled = true)
    (hd : d ≠ s.cap.capPolarity) : exec (.edge d e) s = completed (s.emit (.edgeDropped .polarity)) := by
  simp [exec, execEdge, h, hd]

/-- An edge of the watched polarity is captured (R203). -/
theorem exec_edge_of_watched {d : Dir} (e : Ticks) (h : s.cap.capEnabled = true) (hd : d = s.cap.capPolarity) :
    exec (.edge d e) s = completed (captureEdge d e s) := by
  simp [exec, execEdge, h, hd]

/-- With nothing pending a POLL is an idle iteration (R121). -/
theorem exec_poll_of_idle (h : enabled .poll s = true) (hp : s.mb.mbPending = false) :
    exec .poll s = completed s := by
  simp [exec, execPoll, h, hp]

/-- A pending event is taken and makes one transition (R120). -/
theorem exec_poll_of_pending (h : enabled .poll s = true) (hp : s.mb.mbPending = true) :
    exec .poll s = completed (receiveEvent s.mb.mbDir s.mb.mbElapsed (take s)) := by
  simp [exec, execPoll, h, hp]

/-- A waiting frame is dispatched and discarded, and capture is re-armed (R130). -/
theorem exec_complete_of_enabled (h : enabled .complete s = true) :
    exec .complete s = completed (rearm (discardFrame (dispatchFrame s))) := by
  simp [exec, execComplete, h]

/-- A request is stored and starts its transmission (R170). -/
theorem exec_txreq_of_enabled {a : Byte} {c : Command} (h : enabled (.txreq a c) s = true) :
    exec (.txreq a c) s =
      completed (((s.withTx { s.tx with txFrame := encodeFrame a c, txActive := true, txIndex := 0 }).withCap
        { s.cap with capEnabled := false }).withRx (txreqRx s.cfg.txRxPolicy s.rx)) := by
  simp [exec, execTxreq, h]

/-- An interval is left to send (R174). -/
theorem exec_txstep_of_interval (h : s.tx.txActive = true) (hi : s.tx.txIndex.toNat ≤ 98) :
    exec .txstep s = completed (txEmit s) := by
  simp [exec, execTxstep, enabled, h, hi]

/-- The train is sent (R174, R178). -/
theorem exec_txstep_of_end (h : s.tx.txActive = true) (hi : 98 < s.tx.txIndex.toNat) :
    exec .txstep s = completed (txFinish s) := by
  simp [exec, execTxstep, enabled, h, hi]

end Sys2Proof.Machine
end

section
/-! SUPPORT. What each instruction leaves alone (spec/10_state.md R38). The mailbox is written by a capture and by
RESET; every other instruction keeps it or empties it. -/

namespace Sys2Proof.Machine

variable {s t : State}

@[simp] theorem txreqRx_resetCount (p : TxRxPolicy) (r : Rx) : (txreqRx p r).resetCount = r.resetCount := by
  cases p <;> rfl

@[simp] theorem emitInterval_txFrame (s : State) (iv : PulseInterval) :
    (emitInterval iv s).tx.txFrame = s.tx.txFrame := by cases iv <;> rfl

@[simp] theorem txEmit_txFrame (s : State) : (txEmit s).tx.txFrame = s.tx.txFrame := by simp [txEmit]

/-- EDGE writes the mailbox and the watched polarity only (R200, R203). -/
theorem execEdge_frame {d : Dir} {e : Ticks} (h : execEdge d e s = .next t) :
    t.rx = s.rx ∧ t.tx = s.tx ∧ t.cap.capEnabled = s.cap.capEnabled := by
  rcases execEdge_cases h with ⟨-, rfl⟩ | ⟨-, -, rfl⟩ | ⟨-, -, rfl⟩
  · exact ⟨rfl, rfl, rfl⟩
  · exact ⟨rfl, rfl, rfl⟩
  · simp

/-- POLL takes the pending event at most (R121, R206). -/
theorem execPoll_mb (h : execPoll s = .next t) : t.mb = s.mb ∨ t.mb = { s.mb with mbPending := false } := by
  rcases execPoll_cases h with ⟨-, rfl⟩ | ⟨-, -, rfl⟩ | ⟨-, -, rfl⟩
  · exact .inl rfl
  · exact .inl rfl
  · obtain ⟨-, hmb, -⟩ := receiveEvent_frame s.mb.mbDir s.mb.mbElapsed (take s)
    exact .inr hmb

/-- COMPLETE writes no transmit field and not the enable of the receive path (R130, R207). -/
theorem execComplete_frame (h : execComplete s = .next t) :
    t.tx = s.tx ∧ t.cap.capEnabled = s.cap.capEnabled ∧
    (t.mb = s.mb ∨ t.mb = { s.mb with mbPending := false }) := by
  rcases execComplete_cases h with ⟨-, rfl⟩ | ⟨-, rfl⟩
  · exact ⟨rfl, rfl, .inl rfl⟩
  · simp

/-- TXREQ writes neither the mailbox nor the watched polarity nor the diagnostic counter (R170 to R173). -/
theorem execTxreq_frame {a : Byte} {c : Command} (h : execTxreq a c s = .next t) :
    t.mb = s.mb ∧ t.cap.capPolarity = s.cap.capPolarity ∧ t.rx.resetCount = s.rx.resetCount := by
  rcases execTxreq_cases h with ⟨-, rfl⟩ | ⟨-, rfl⟩
  · exact ⟨rfl, rfl, rfl⟩
  · simp

/-- TXSTEP writes no receive field and keeps the frame it sends (R174). -/
theorem execTxstep_frame (h : execTxstep s = .next t) :
    t.rx = s.rx ∧ t.tx.txFrame = s.tx.txFrame ∧
    (t.mb = s.mb ∨ t.mb = { s.mb with mbPending := false }) := by
  rcases execTxstep_cases h with ⟨-, rfl⟩ | ⟨-, -, rfl⟩ | ⟨-, -, rfl⟩
  · exact ⟨rfl, rfl, .inl rfl⟩
  · simp
  · exact ⟨rfl, rfl, .inr rfl⟩

end Sys2Proof.Machine
end

section
/-! SUPPORT. What a mailbox with nothing pending holds is not looked at: with another one in its place every
operation does the same, and keeps the other one or overwrites both (spec/10_state.md R29, R30). -/

namespace Sys2Proof.Machine

variable {s t : State} {m : Mailbox}

/-- A capture overwrites the mailbox; of the old one only the pending flag counts (R203, R204). -/
theorem captureEdge_withMb (d : Dir) (e : Ticks) (h : m.mbPending = s.mb.mbPending) :
    captureEdge d e (s.withMb m) = captureEdge d e s := by
  simp only [captureEdge, State.withMb_mb, h]
  split <;> rfl

/-- To re-arm with nothing pending leaves the mailbox as it is (R207). -/
theorem rearm_withMb (s : State) (hm : m.mbPending = false) : rearm (s.withMb m) = (rearm s).withMb m := by
  obtain ⟨pending, e, d⟩ := m
  cases hm
  rfl

theorem dispatchFrame_withMb (s : State) (m : Mailbox) :
    dispatchFrame (s.withMb m) = (dispatchFrame s).withMb m := by
  simp only [dispatchFrame, State.withMb_rx, State.withMb_cfg]
  split <;> rfl

theorem txEmit_withMb (s : State) (m : Mailbox) : txEmit (s.withMb m) = (txEmit s).withMb m := by
  simp only [txEmit, State.withMb_cfg, State.withMb_tx]
  cases pulse s.cfg s.tx.txFrame s.tx.txIndex.toNat <;> rfl

theorem txFinish_withMb (s : State) (hm : m.mbPending = false) :
    txFinish (s.withMb m) = (txFinish s).withMb m := by
  obtain ⟨pending, e, d⟩ := m
  cases hm
  rfl

/-- With nothing pending, an instruction other than READ either overwrites the mailbox or leaves it as it found it,
and goes on alike from every such mailbox (R29, R30, R43). -/
theorem exec_withMb_of_not_pending {i : Instr} (hs : s.mb.mbPending = false) (hm : m.mbPending = false)
    (hi : ∀ v, i ≠ .read v) (h : exec i s = .next t) :
    exec i (s.withMb m) = .next t ∨ (exec i (s.withMb m) = .next (t.withMb m) ∧ t.mb.mbPending = false) := by
  cases i with
  | edge d e =>
    rcases execEdge_cases h with ⟨hen, rfl⟩ | ⟨hen, hd, rfl⟩ | ⟨hen, hd, rfl⟩
    · exact .inr ⟨exec_edge_of_disabled d e hen, hs⟩
    · exact .inr ⟨exec_edge_of_other_polarity e hen hd, hs⟩
    · left
      rw [exec_edge_of_watched (s := s.withMb m) e hen hd, captureEdge_withMb d e (hm.trans hs.symm)]
      rfl
  | poll =>
    rcases execPoll_cases h with ⟨hen, rfl⟩ | ⟨hen, -, rfl⟩ | ⟨-, hp, -⟩
    · exact .inr ⟨exec_of_not_enabled (i := .poll) hen, hs⟩
    · exact .inr ⟨exec_poll_of_idle (s := s.withMb m) hen hm, hs⟩
    · simp [hs] at hp
  | complete =>
    right
    rcases execComplete_cases h with ⟨hen, rfl⟩ | ⟨hen, rfl⟩
    · exact ⟨exec_of_not_enabled (i := .complete) hen, hs⟩
    · rw [exec_complete_of_enabled (s := s.withMb m) hen, dispatchFrame_withMb]
      exact ⟨congrArg completed (rearm_withMb (discardFrame (dispatchFrame s)) hm), rfl⟩
  | txreq a c =>
    right
    rcases execTxreq_cases h with ⟨hen, rfl⟩ | ⟨hen, rfl⟩
    · exact ⟨exec_of_not_enabled (i := .txreq a c) hen, hs⟩
    · exact ⟨exec_txreq_of_enabled (s := s.withMb m) hen, hs⟩
  | txstep =>
    right
    rcases execTxstep_cases h with ⟨hen, rfl⟩ | ⟨ha, hle, rfl⟩ | ⟨ha, hlt, rfl⟩
    · exact ⟨exec_of_not_enabled (i := .txstep) hen, hs⟩
    · rw [exec_txstep_of_interval (s := s.withMb m) ha hle, txEmit_withMb]
      exact ⟨rfl, by simp [hs]⟩
    · rw [exec_txstep_of_end (s := s.withMb m) ha hlt, txFinish_withMb s hm]
      exact ⟨rfl, rfl⟩
  | read v => exact absurd rfl (hi v)
  | reset =>
    obtain rfl := execReset_cases h
    exact .inl rfl

end Sys2Proof.Machine
end

section
/-! SUPPORT. The diagnostic counter is not looked at but to count it: with another value in it every operation does
the same to the rest of the state (spec/10_state.md R27). -/

namespace Sys2Proof.Machine

variable (s : State) (n : BitVec 16)

/-- `s` with another value of the diagnostic counter (R27). -/
def State.withCount : State := s.withRx { s.rx with resetCount := n }

@[simp] theorem State.withCount_cfg : (s.withCount n).cfg = s.cfg := rfl
@[simp] theorem State.withCount_rxState : (s.withCount n).rx.rxState = s.rx.rxState := rfl
@[simp] theorem State.withCount_frame : (s.withCount n).rx.frame = s.rx.frame := rfl
@[simp] theorem State.withCount_mb : (s.withCount n).mb = s.mb := rfl
@[simp] theorem State.withCount_tx : (s.withCount n).tx = s.tx := rfl

/-- An appended bit neither reads nor writes the counter (R127). -/
theorem appendBit_withCount (b : Bool) :
    appendBit b (s.withCount n).rx = { appendBit b s.rx with resetCount := n } := by
  show appendBit b { s.rx with resetCount := n } = _
  simp only [appendBit]
  split <;> rfl

/-- An anomaly counts, and looks at the counter for nothing else (R128). -/
theorem anomaly_withCount (cause : AnomalyCause) :
    anomaly cause (s.withCount n) = (anomaly cause s).withCount (satInc s.cfg.resetCountBits n) := rfl

theorem stepReset_withCount (d : Dir) (e : Ticks) :
    ∃ k, stepReset d e (s.withCount n) = (stepReset d e s).withCount k := by
  rw [stepReset, stepReset, State.withCount_cfg]
  split
  · exact ⟨n, rfl⟩
  · exact ⟨_, anomaly_withCount s n .idle⟩

theorem stepTraining_withCount (d : Dir) (e : Ticks) :
    ∃ k, stepTraining d e (s.withCount n) = (stepTraining d e s).withCount k := by
  rw [stepTraining, stepTraining, State.withCount_cfg]
  split
  · exact ⟨n, rfl⟩
  · exact ⟨_, anomaly_withCount s n .silence⟩

theorem stepMark_withCount (e : Ticks) : ∃ k, stepMark e (s.withCount n) = (stepMark e s).withCount k := by
  rw [stepMark, stepMark, State.withCount_cfg]
  split
  · exact ⟨n, rfl⟩
  · exact ⟨_, anomaly_withCount s n .mark⟩

theorem stepSpace_withCount (e : Ticks) : ∃ k, stepSpace e (s.withCount n) = (stepSpace e s).withCount k := by
  rw [stepSpace, stepSpace, State.withCount_cfg, appendBit_withCount, appendBit_withCount]
  split_ifs
  · exact ⟨n, rfl⟩
  · exact ⟨n, rfl⟩
  · exact ⟨_, anomaly_withCount s n .space⟩

/-- The transition of a taken event changes nothing but the counter with the counter (R120, R122). -/
theorem receiveEvent_withCount (d : Dir) (e : Ticks) :
    ∃ k, receiveEvent d e (s.withCount n) = (receiveEvent d e s).withCount k := by
  simp only [receiveEvent, State.withCount_rxState]
  cases s.rx.rxState with
  | reset => exact stepReset_withCount s n d e
  | trainingReceived => exact stepTraining_withCount s n d e
  | receivingBits =>
    cases d with
    | rising => exact stepMark_withCount s n e
    | falling => exact stepSpace_withCount s n e
  | commandReceived => exact ⟨n, rfl⟩

/-- An accepted frame clears the counter, a rejected one keeps it (R130, R132). -/
theorem dispatchFrame_withCount : ∃ k, dispatchFrame (s.withCount n) = (dispatchFrame s).withCount k := by
  simp only [dispatchFrame, State.withCount_frame, State.withCount_cfg]
  split
  · exact ⟨0, rfl⟩
  · exact ⟨n, rfl⟩

theorem captureEdge_withCount (d : Dir) (e : Ticks) :
    captureEdge d e (s.withCount n) = (captureEdge d e s).withCount n := by
  cases hp : s.mb.mbPending <;> simp only [captureEdge, State.withCount_mb, hp] <;> rfl

theorem txEmit_withCount : txEmit (s.withCount n) = (txEmit s).withCount n := by
  simp only [txEmit, State.withCount_cfg, State.withCount_tx]
  cases pulse s.cfg s.tx.txFrame s.tx.txIndex.toNat <;> rfl

theorem txreqRx_withCount (p : TxRxPolicy) :
    txreqRx p (s.withCount n).rx = { txreqRx p s.rx with resetCount := n } := by
  cases p <;> rfl

/-- An instruction other than READ goes on alike from every value of the counter, but for the counter (R27, R248). -/
theorem exec_withCount {s t : State} {i : Instr} (hi : ∀ v, i ≠ .read v) (h : exec i s = .next t) :
    ∃ k, exec i (s.withCount n) = .next (t.withCount k) := by
  cases i with
  | edge d e =>
    refine ⟨n, ?_⟩
    rcases execEdge_cases h with ⟨hen, rfl⟩ | ⟨hen, hd, rfl⟩ | ⟨hen, hd, rfl⟩
    · exact exec_edge_of_disabled d e hen
    · exact exec_edge_of_other_polarity e hen hd
    · rw [exec_edge_of_watched (s := s.withCount n) e hen hd, captureEdge_withCount]
      rfl
  | poll =>
    rcases execPoll_cases h with ⟨hen, rfl⟩ | ⟨hen, hp, rfl⟩ | ⟨hen, hp, rfl⟩
    · exact ⟨n, exec_of_not_enabled (i := .poll) hen⟩
    · exact ⟨n, exec_poll_of_idle (s := s.withCount n) hen hp⟩
    · obtain ⟨k, hk⟩ := receiveEvent_withCount (take s) n s.mb.mbDir s.mb.mbElapsed
      exact ⟨k, (exec_poll_of_pending (s := s.withCount n) hen hp).trans (congrArg completed hk)⟩
  | complete =>
    rcases execComplete_cases h with ⟨hen, rfl⟩ | ⟨hen, rfl⟩
    · exact ⟨n, exec_of_not_enabled (i := .complete) hen⟩
    · obtain ⟨k, hk⟩ := dispatchFrame_withCount s n
      refine ⟨k, ?_⟩
      rw [exec_complete_of_enabled (s := s.withCount n) hen, hk]
      rfl
  | txreq a c =>
    refine ⟨n, ?_⟩
    rcases execTxreq_cases h with ⟨hen, rfl⟩ | ⟨hen, rfl⟩
    · exact exec_of_not_enabled (i := .txreq a c) hen
    · rw [exec_txreq_of_enabled (s := s.withCount n) hen, txreqRx_withCount]
      rfl
  | txstep =>
    refine ⟨n, ?_⟩
    rcases execTxstep_cases h with ⟨hen, rfl⟩ | ⟨ha, hle, rfl⟩ | ⟨ha, hlt, rfl⟩
    · exact exec_of_not_enabled (i := .txstep) hen
    · rw [exec_txstep_of_interval (s := s.withCount n) ha hle, txEmit_withCount]
      rfl
    · exact exec_txstep_of_end (s := s.withCount n) ha hlt
  | read v => exact absurd rfl (hi v)
  | reset =>
    obtain rfl := execReset_cases h
    exact ⟨0, rfl⟩

end Sys2Proof.Machine
end

section
/-! The obligations of spec/10_state.md. -/

namespace Sys2Proof.Machine

/-- Settles O36: each field of STATUS is read off the number the view is. -/
theorem statusViewBits : Obligations.StatusViewBits := by
  intro s
  have hlayout := viewValue_status_toNat s
  have hindex := s.tx.txIndex.isLt
  have hactive := s.tx.txActive.toNat_le
  have henabled := s.cap.capEnabled.toNat_le
  have hpolarity := s.cap.capPolarity.bit.toNat_le
  have hdir := s.mb.mbDir.bit.toNat_le
  have hpending := s.mb.mbPending.toNat_le
  have hbytes := s.rx.byteCount.isLt
  have hbits := s.rx.bitCount.isLt
  have hstate := (rxStateCode s.rx.rxState).isLt
  simp only [← dir_bit_eq_decide]
  refine ⟨?rxState, field_eq_of_toNat ?bitCount, field_eq_of_toNat ?byteCount, bit_eq_of_toNat ?mbPending,
    bit_eq_of_toNat ?mbDir, bit_eq_of_toNat ?capPolarity, bit_eq_of_toNat ?capEnabled, bit_eq_of_toNat ?txActive,
    field_eq_of_toNat ?txIndex, field_eq_of_toNat (show _ = 0 from ?reserved)⟩
  case rxState =>
    calc (viewValue .status s).extractLsb' 0 2
      _ = rxStateCode s.rx.rxState := field_eq_of_toNat (by omega)
      _ = _ := by cases s.rx.rxState <;> rfl
  all_goals omega

/-- Settles O37, from the layout of bytes side by side. -/
theorem otherViewBits : Obligations.OtherViewBits := by
  intro s
  refine ⟨?resetCount, ?resetCountReserved, ?mbElapsed, ?mbElapsedReserved, ?frameA, ?byte4, ?byte5, ?curByte,
    ?frameBReserved, ?txFrameA, ?txByte4, ?txByte5, ?txFrameBReserved⟩
  case resetCount => exact BitVec.extractLsb'_append_eq_right
  case resetCountReserved => exact BitVec.extractLsb'_append_eq_left
  case mbElapsed => exact BitVec.extractLsb'_append_eq_right
  case mbElapsedReserved => exact BitVec.extractLsb'_append_eq_left
  case frameA => exact fun _ hj => firstFourBytes_field s.rx.frame hj
  case byte4 => exact fourBytes_first _ _ _ 0
  case byte5 => exact fourBytes_second _ _ _ 0
  case curByte => exact fourBytes_third _ _ _ 0
  case frameBReserved => exact fourBytes_fourth _ _ _ 0
  case txFrameA => exact fun _ hj => firstFourBytes_field s.tx.txFrame hj
  case txByte4 => exact (BitVec.extractLsb'_append_eq_of_le (by decide)).trans BitVec.extractLsb'_append_eq_left
  case txByte5 => exact (BitVec.extractLsb'_append_eq_of_le (by decide)).trans BitVec.extractLsb'_append_eq_right
  case txFrameBReserved => exact BitVec.extractLsb'_append_eq_right

/-- Settles O48, instruction by instruction from what each leaves alone. -/
theorem writersPerField : Obligations.WritersPerField := by
  intro i s t h
  obtain ⟨hcfg, hstimulus, -⟩ := exec_frame h
  refine ⟨hcfg, hstimulus, ?_⟩
  cases i with
  | edge d e =>
    obtain ⟨hrx, htx, henabled⟩ := execEdge_frame h
    simp [hrx, htx, henabled]
  | poll =>
    obtain ⟨-, hcap, htx, -⟩ := execPoll_frame h
    rcases execPoll_mb h with hmb | hmb <;> simp [hcap, htx, hmb]
  | complete =>
    obtain ⟨htx, henabled, hmb | hmb⟩ := execComplete_frame h <;> simp [htx, henabled, hmb]
  | txreq a c =>
    obtain ⟨hmb, hpolarity, hcount⟩ := execTxreq_frame h
    simp [hmb, hpolarity, hcount]
  | txstep =>
    obtain ⟨hrx, hframe, hmb | hmb⟩ := execTxstep_frame h <;> simp [hrx, hframe, hmb]
  | read v =>
    obtain rfl := execRead_cases h
    simp
  | reset =>
    obtain rfl := execReset_cases h
    simp [Mailbox.reset]

/-- Settles O52: READ apart, the stale mailbox is kept or overwritten unseen. -/
theorem staleMailboxUnread : Obligations.StaleMailboxUnread := by
  intro i s t e d hs h
  by_cases hread : ∃ v, i = .read v
  · obtain ⟨v, rfl⟩ := hread
    obtain rfl := execRead_cases h
    exact ⟨_, rfl, rfl, rfl, rfl, rfl, rfl, hs.symm, fun hp => absurd hp (by simp [hs]), fun hi => absurd rfl (hi v)⟩
  · rcases exec_withMb_of_not_pending (m := ⟨false, e, d⟩) hs rfl (not_exists.1 hread) h with hexec | ⟨hexec, hp⟩
    · exact ⟨t, hexec, rfl, rfl, rfl, rfl, rfl, rfl, fun _ => rfl, fun _ => rfl⟩
    · exact ⟨_, hexec, rfl, rfl, rfl, rfl, rfl, hp.symm, fun hp' => absurd hp' (by simp [hp]), fun _ => rfl⟩

/-- Settles O53: READ apart, another count changes the count alone. -/
theorem resetCountUnread : Obligations.ResetCountUnread := by
  intro i s t n h
  by_cases hread : ∃ v, i = .read v
  · obtain ⟨v, rfl⟩ := hread
    obtain rfl := execRead_cases h
    exact ⟨_, rfl, rfl, rfl, rfl, rfl, rfl, rfl, fun hi => absurd rfl (hi v)⟩
  · obtain ⟨k, hexec⟩ := exec_withCount n (not_exists.1 hread) h
    exact ⟨_, hexec, rfl, rfl, rfl, rfl, rfl, rfl, fun _ => rfl⟩

/-- Settles O35: READ writes the result alone. -/
theorem readStep : Obligations.ReadStep := fun _ _ => rfl

/-- Settles O38: RESET writes every field of the record. -/
theorem resetStep : Obligations.ResetStep := fun _ => rfl

/-- Settles O39: construction and RESET end in the same field values. -/
theorem resetValues : Obligations.ResetValues := by
  refine ⟨construct_of_legal (by decide), ?_⟩
  rintro t (⟨c, h⟩ | ⟨s, h⟩)
  · obtain ⟨-, rfl⟩ := construct_cases h
    exact ⟨rfl, rfl, rfl, rfl, viewValue_status_of_resetValues rfl rfl rfl rfl⟩
  · obtain rfl := execReset_cases h
    exact ⟨rfl, rfl, rfl, rfl, viewValue_status_of_resetValues rfl rfl rfl rfl⟩

/-- Settles O46: the reset values are sound at every legal configuration, the default one among them. -/
theorem resetMeetsInvariant : Obligations.ResetMeetsInvariant := by
  have hinitial : ∀ c, configLegal c = true → Sound (State.initial c) :=
    fun _ hc => sound_of_resetValues hc rfl rfl rfl rfl
  exact ⟨hinitial Config.default (by decide), hinitial⟩

end Sys2Proof.Machine
end

section
/-! SUPPORT. A byte collected bit by bit, most significant bit first (spec/20_memory.md R52, spec/41_receive.md
R127): what the record holds after the bits above bit `n`, and what it holds after bit 0. -/

namespace Sys2Proof.Machine

/-- One more bit of a byte, shifted in below the bits already held. -/
theorem shiftRight_succ_shiftIn (x : Byte) (n : Nat) :
    (x >>> (n + 1)) <<< 1 ||| (BitVec.ofBool (x.getLsbD n)).setWidth 8 = x >>> n := by
  ext k hk
  rcases k with _ | k
  · simp
  · simp [Nat.add_comm, Nat.add_left_comm]

/-- The record with the bits of `x` above bit `n` collected. -/
def Rx.holdingAbove (r : Rx) (x : Byte) (n : Nat) : Rx :=
  { r with curByte := x >>> (n + 1), bitCount := BitVec.ofNat 3 (7 - n) }

/-- The record with `x` stored at the place of the byte being assembled, which is empty again. -/
def Rx.stored (r : Rx) (x : Byte) : Rx :=
  { r with
    rxState := if r.byteCount.toNat = 5 then .commandReceived else r.rxState
    frame := r.frame.set r.byteCount.toNat x
    curByte := 0
    bitCount := 0
    byteCount := r.byteCount + 1 }

variable (r : Rx) (x : Byte)

/-- An empty byte holds the bits above bit 7. -/
theorem Rx.holdingAbove_seven (hbits : r.bitCount = 0) (hbyte : r.curByte = 0) : r.holdingAbove x 7 = r := by
  have hshift : x >>> 8 = r.curByte := (BitVec.ushiftRight_eq_zero (le_refl 8)).trans hbyte.symm
  have hcount : BitVec.ofNat 3 (7 - 7) = r.bitCount := hbits.symm
  rw [Rx.holdingAbove, hshift, hcount]

/-- Appending the next lower bit, while it is not bit 0. -/
theorem appendBit_holdingAbove_succ {n : Nat} (hn : n < 7) :
    appendBit (x.getLsbD (n + 1)) (r.holdingAbove x (n + 1)) = r.holdingAbove x n := by
  have hcount : BitVec.ofNat 3 (7 - (n + 1)) + 1 = BitVec.ofNat 3 (7 - n) :=
    (BitVec.ofNat_add _ 1).symm.trans (congrArg _ (by omega))
  rw [appendBit_within _ _ (by simp [Rx.holdingAbove]; omega)]
  simp only [Rx.holdingAbove, shiftRight_succ_shiftIn, hcount]

/-- Appending bit 0 stores the byte. -/
theorem appendBit_holdingAbove_zero : appendBit (x.getLsbD 0) (r.holdingAbove x 0) = r.stored x := by
  rw [appendBit_last _ _ rfl]
  simp only [Rx.holdingAbove, shiftRight_succ_shiftIn, BitVec.ushiftRight_zero, Nat.reduceEqDiff, Rx.stored]

/-- Appending the bits from bit `n` down to bit 0 completes the byte. -/
theorem foldl_appendBit_holdingAbove {n : Nat} (hn : n < 8) :
    (List.range (n + 1)).reverse.foldl (fun r j => appendBit (x.getLsbD j) r) (r.holdingAbove x n) = r.stored x := by
  induction n with
  | zero => exact appendBit_holdingAbove_zero r x
  | succ n ih =>
    rw [List.range_succ, List.reverse_append, List.reverse_singleton, List.singleton_append, List.foldl_cons,
      appendBit_holdingAbove_succ r x (by omega)]
    exact ih (by omega)

end Sys2Proof.Machine
end


section
/-! The obligation of spec/20_memory.md. -/

namespace Sys2Proof.Machine

/-- Settles O21: the eight bits go from an empty byte, through the bits held above each bit, to the stored byte. -/
theorem eightBitsStoreTheirByte : Obligations.EightBitsStoreTheirByte := by
  intro r x hbits hbyte _
  have hcollected := foldl_appendBit_holdingAbove r x (n := 7) (by decide)
  rw [Rx.holdingAbove_seven r x hbits hbyte] at hcollected
  have hnext : r.byteCount + 1 = BitVec.ofNat 3 (r.byteCount.toNat + 1) := by simp [BitVec.ofNat_add]
  rw [Rx.stored, ← hbits, ← hbyte, hnext] at hcollected
  exact hcollected

end Sys2Proof.Machine
end

section
/-! SUPPORT. The decoder as a dispatch on the opcode (spec/30_encoding.md R75, R83): which format each opcode has, and
the reason of every refusal. -/

namespace Sys2Proof

variable {w : Word} {i : Instr} {n : Nat} {r : WordRefusal}

section Dispatch

theorem decode_of_opcode_edge (h : opcodeField w = 0x1) : decode n w = decodeEdge n w := by simp [decode, h]
theorem decode_of_opcode_poll (h : opcodeField w = 0x2) : decode n w = decodeBare w .poll := by simp [decode, h]
theorem decode_of_opcode_complete (h : opcodeField w = 0x3) : decode n w = decodeBare w .complete := by
  simp [decode, h]
theorem decode_of_opcode_txreq (h : opcodeField w = 0x4) : decode n w = decodeTxreq w := by simp [decode, h]
theorem decode_of_opcode_txstep (h : opcodeField w = 0x5) : decode n w = decodeBare w .txstep := by
  simp [decode, h]
theorem decode_of_opcode_read (h : opcodeField w = 0x6) : decode n w = decodeRead w := by simp [decode, h]
theorem decode_of_opcode_reset (h : opcodeField w = 0xF) : decode n w = decodeBare w .reset := by simp [decode, h]

/-- The opcodes that name no step (R84). -/
def illegalOpcode (op : BitVec 4) : Prop := op = 0 ∨ (7 ≤ op.toNat ∧ op.toNat ≤ 14)

/-- An opcode names one of the seven steps, or it is illegal (R75, R84). -/
theorem opcode_cases (op : BitVec 4) :
    op = 0x1 ∨ op = 0x2 ∨ op = 0x3 ∨ op = 0x4 ∨ op = 0x5 ∨ op = 0x6 ∨ op = 0xF ∨ illegalOpcode op := by
  simp only [illegalOpcode]
  revert op
  decide

/-- An illegal opcode is none of the seven. -/
theorem ne_of_illegalOpcode {op : BitVec 4} (h : illegalOpcode op) :
    op ≠ 0x1 ∧ op ≠ 0x2 ∧ op ≠ 0x3 ∧ op ≠ 0x4 ∧ op ≠ 0x5 ∧ op ≠ 0x6 ∧ op ≠ 0xF := by
  simp only [illegalOpcode] at h
  revert op
  decide

theorem decode_of_opcode_illegal (h : illegalOpcode (opcodeField w)) : decode n w = .error .illegalOpcode := by
  obtain ⟨h1, h2, h3, h4, h5, h6, hF⟩ := ne_of_illegalOpcode h
  simp only [decode, h1, h2, h3, h4, h5, h6, hF, if_false]

end Dispatch

section Refusals

theorem decodeBare_eq_error : decodeBare w i = .error r ↔ r = .reservedBits ∧ w.extractLsb' 0 28 ≠ 0 := by
  unfold decodeBare
  split <;> simp_all [eq_comm]

/-- The reserved bits are tested before the width of the elapsed value (R83). -/
theorem decodeEdge_eq_error :
    decodeEdge n w = .error r ↔
      (r = .reservedBits ∧ w.extractLsb' 25 3 ≠ 0) ∨
      (r = .elapsedTooWide ∧ w.extractLsb' 25 3 = 0 ∧ 2 ^ n ≤ (w.extractLsb' 0 24).toNat) := by
  unfold decodeEdge
  split
  · simp_all [eq_comm]
  · split <;> simp_all [eq_comm]

theorem decodeTxreq_eq_error : decodeTxreq w = .error r ↔ r = .reservedBits ∧ w.extractLsb' 24 4 ≠ 0 := by
  unfold decodeTxreq
  split <;> simp_all [eq_comm]

/-- The reserved bits are tested before the view (R83). -/
theorem decodeRead_eq_error :
    decodeRead w = .error r ↔
      (r = .reservedBits ∧ w.extractLsb' 3 25 ≠ 0) ∨
      (r = .badView ∧ w.extractLsb' 3 25 = 0 ∧ w.extractLsb' 0 3 = 7) := by
  rw [← view_ofIndex_eq_none]
  unfold decodeRead
  split
  · simp_all [eq_comm]
  · cases View.ofIndex (w.extractLsb' 0 3) <;> simp_all [eq_comm]

/-- The opcodes of the four words without operands (R77, R78, R80, R81). -/
def bareOpcode (op : BitVec 4) : Prop := op = 0x2 ∨ op = 0x3 ∨ op = 0x5 ∨ op = 0xF

/-- A word is refused for its opcode or by its format (R83, R84). -/
theorem decode_eq_error :
    decode n w = .error r ↔
      (illegalOpcode (opcodeField w) ∧ r = .illegalOpcode) ∨
      (opcodeField w = 0x1 ∧ decodeEdge n w = .error r) ∨
      (bareOpcode (opcodeField w) ∧ r = .reservedBits ∧ w.extractLsb' 0 28 ≠ 0) ∨
      (opcodeField w = 0x4 ∧ decodeTxreq w = .error r) ∨
      (opcodeField w = 0x6 ∧ decodeRead w = .error r) := by
  rcases opcode_cases (opcodeField w) with h | h | h | h | h | h | h | h
  · simp [decode_of_opcode_edge h, h, illegalOpcode, bareOpcode]
  · simp [decode_of_opcode_poll h, decodeBare_eq_error, h, illegalOpcode, bareOpcode]
  · simp [decode_of_opcode_complete h, decodeBare_eq_error, h, illegalOpcode, bareOpcode]
  · simp [decode_of_opcode_txreq h, h, illegalOpcode, bareOpcode]
  · simp [decode_of_opcode_txstep h, decodeBare_eq_error, h, illegalOpcode, bareOpcode]
  · simp [decode_of_opcode_read h, h, illegalOpcode, bareOpcode]
  · simp [decode_of_opcode_reset h, decodeBare_eq_error, h, illegalOpcode, bareOpcode]
  · obtain ⟨h1, h2, h3, h4, h5, h6, hF⟩ := ne_of_illegalOpcode h
    simp only [decode_of_opcode_illegal h, h, bareOpcode, h1, h2, h3, h4, h5, h6, hF, true_and, false_and, or_false,
      Except.error.injEq]
    exact eq_comm

end Refusals

end Sys2Proof
end

section
/-! SUPPORT. The fields of an instruction's word, and a word put together from its fields (spec/30_encoding.md R75,
R76, R79, R82). -/

namespace Sys2Proof

section Fields

theorem opcodeField_encode_edge (d : Dir) (e : Ticks) : opcodeField (encode (.edge d e)) = 0x1 :=
  field_eq_of_toNat (show _ = 1 by rw [encode_edge_toNat]; have := e.isLt; have := d.bit.toNat_le; omega)

theorem reserved_encode_edge (d : Dir) (e : Ticks) : (encode (.edge d e)).extractLsb' 25 3 = 0 :=
  field_eq_of_toNat (show _ = 0 by rw [encode_edge_toNat]; have := e.isLt; have := d.bit.toNat_le; omega)

theorem dir_encode_edge (d : Dir) (e : Ticks) : (encode (.edge d e)).getLsbD 24 = d.bit :=
  bit_eq_of_toNat (by rw [encode_edge_toNat]; have := e.isLt; have := d.bit.toNat_le; omega)

theorem elapsed_encode_edge (d : Dir) (e : Ticks) : (encode (.edge d e)).extractLsb' 0 24 = e :=
  BitVec.extractLsb'_append_eq_right

theorem opcodeField_encode_txreq (a : Byte) (c : Command) : opcodeField (encode (.txreq a c)) = 0x4 :=
  field_eq_of_toNat (show _ = 4 by rw [encode_txreq_toNat]; have := a.isLt; have := c.isLt; omega)

theorem reserved_encode_txreq (a : Byte) (c : Command) : (encode (.txreq a c)).extractLsb' 24 4 = 0 :=
  field_eq_of_toNat (show _ = 0 by rw [encode_txreq_toNat]; have := a.isLt; have := c.isLt; omega)

theorem addr_encode_txreq (a : Byte) (c : Command) : (encode (.txreq a c)).extractLsb' 16 8 = a :=
  field_eq_of_toNat (by rw [encode_txreq_toNat]; have := a.isLt; have := c.isLt; omega)

theorem cmd_encode_txreq (a : Byte) (c : Command) : (encode (.txreq a c)).extractLsb' 0 16 = c :=
  BitVec.extractLsb'_append_eq_right

theorem opcodeField_encode_read (v : View) : opcodeField (encode (.read v)) = 0x6 :=
  field_eq_of_toNat (show _ = 6 by rw [encode_read_toNat]; have := v.index.isLt; omega)

theorem reserved_encode_read (v : View) : (encode (.read v)).extractLsb' 3 25 = 0 :=
  field_eq_of_toNat (show _ = 0 by rw [encode_read_toNat]; have := v.index.isLt; omega)

theorem view_encode_read (v : View) : (encode (.read v)).extractLsb' 0 3 = v.index :=
  BitVec.extractLsb'_append_eq_right

end Fields

section Words
variable (w : Word)

/-- A bit is the field of that one bit. -/
theorem ofBool_getLsbD_eq_field (k : Nat) : BitVec.ofBool (w.getLsbD k) = w.extractLsb' k 1 := by
  ext j hj
  obtain rfl : j = 0 := by omega
  simp

/-- A word is its opcode above its operand bits. -/
theorem bareFields_append : opcodeField w ++ w.extractLsb' 0 28 = w :=
  (BitVec.extractLsb'_append_extractLsb'_eq_extractLsb' rfl).trans BitVec.extractLsb'_eq_self

/-- A word is the four fields of EDGE side by side (R76). -/
theorem edgeFields_append :
    opcodeField w ++ w.extractLsb' 25 3 ++ BitVec.ofBool (w.getLsbD 24) ++ w.extractLsb' 0 24 = w := by
  refine BitVec.eq_of_toNat_eq ?_
  have := w.isLt
  simp only [append_toNat, field_toNat, opcodeField, ofBool_getLsbD_eq_field]
  omega

/-- A word is the four fields of TXREQ side by side (R79). -/
theorem txreqFields_append :
    opcodeField w ++ w.extractLsb' 24 4 ++ w.extractLsb' 16 8 ++ w.extractLsb' 0 16 = w := by
  refine BitVec.eq_of_toNat_eq ?_
  have := w.isLt
  simp only [append_toNat, field_toNat, opcodeField]
  omega

/-- A word is the three fields of READ side by side (R82). -/
theorem readFields_append : opcodeField w ++ w.extractLsb' 3 25 ++ w.extractLsb' 0 3 = w := by
  refine BitVec.eq_of_toNat_eq ?_
  have := w.isLt
  simp only [append_toNat, field_toNat, opcodeField]
  omega

end Words

/-- An instruction whose word is its opcode alone (R77, R78, R80, R81) is the only reading of that word. -/
theorem encode_of_decodeBare {w : Word} {i j : Instr} {op : BitVec 4} (hi : encode i = op ++ 0#28)
    (hop : opcodeField w = op) (h : decodeBare w i = .ok j) : encode j = w := by
  obtain ⟨hzero, rfl⟩ := decodeBare_eq_ok.1 h
  calc encode i
    _ = opcodeField w ++ w.extractLsb' 0 28 := by rw [hi, hop, hzero]; rfl
    _ = w := bareFields_append w

/-- A decoded word is the word of what it decodes to, format by format (R83, R85). -/
theorem encode_of_decode {w : Word} {i : Instr} {n : Nat} (h : decode n w = .ok i) : encode i = w := by
  rcases decode_cases h with ⟨hop, h⟩ | ⟨hop, h⟩ | ⟨hop, h⟩ | ⟨hop, h⟩ | ⟨hop, h⟩ | ⟨hop, h⟩ | ⟨hop, h⟩
  · obtain ⟨hzero, -, rfl⟩ := decodeEdge_eq_ok.1 h
    calc encode (.edge (Dir.ofBit (w.getLsbD 24)) (w.extractLsb' 0 24))
      _ = opcodeField w ++ w.extractLsb' 25 3 ++ BitVec.ofBool (w.getLsbD 24) ++ w.extractLsb' 0 24 := by
        rw [encode, dir_bit_ofBit, hop, hzero]; rfl
      _ = w := edgeFields_append w
  · exact encode_of_decodeBare rfl hop h
  · exact encode_of_decodeBare rfl hop h
  · obtain ⟨hzero, rfl⟩ := decodeTxreq_eq_ok.1 h
    calc encode (.txreq (w.extractLsb' 16 8) (w.extractLsb' 0 16))
      _ = opcodeField w ++ w.extractLsb' 24 4 ++ w.extractLsb' 16 8 ++ w.extractLsb' 0 16 := by
        rw [encode, hop, hzero]; rfl
      _ = w := txreqFields_append w
  · exact encode_of_decodeBare rfl hop h
  · obtain ⟨hzero, v, hv, rfl⟩ := decodeRead_eq_ok.1 h
    calc encode (.read v)
      _ = opcodeField w ++ w.extractLsb' 3 25 ++ w.extractLsb' 0 3 := by
        rw [encode, view_index_of_ofIndex hv, hop, hzero]; rfl
      _ = w := readFields_append w
  · exact encode_of_decodeBare rfl hop h

/-- A well-formed instruction is what its word decodes to (R83, R87). -/
theorem decode_encode {i : Instr} {n : Nat} (h : i.wellFormed n = true) : decode n (encode i) = .ok i := by
  cases i with
  | edge d e =>
    have hwidth : e.toNat < 2 ^ n := of_decide_eq_true h
    rw [decode_of_opcode_edge (opcodeField_encode_edge d e), decodeEdge_eq_ok, dir_encode_edge,
      elapsed_encode_edge, dir_ofBit_bit]
    exact ⟨reserved_encode_edge d e, hwidth, rfl⟩
  | poll => rfl
  | complete => rfl
  | txreq a c =>
    rw [decode_of_opcode_txreq (opcodeField_encode_txreq a c), decodeTxreq_eq_ok, addr_encode_txreq,
      cmd_encode_txreq]
    exact ⟨reserved_encode_txreq a c, rfl⟩
  | txstep => rfl
  | read v =>
    rw [decode_of_opcode_read (opcodeField_encode_read v), decodeRead_eq_ok, view_encode_read]
    exact ⟨reserved_encode_read v, v, view_ofIndex_index v, rfl⟩
  | reset => rfl

end Sys2Proof
end

section
/-! The obligations of spec/30_encoding.md on words. -/

namespace Sys2Proof.Machine

/-- Settles O1, instruction by instruction from the fields of its word. -/
theorem decodeOfEncode : Obligations.DecodeOfEncode :=
  fun _ _ h => decode_encode h

/-- Settles O2, format by format from the word put together from its fields. -/
theorem encodeOfDecode : Obligations.EncodeOfDecode :=
  fun _ _ _ h => ⟨encode_of_decode h, decode_wellFormed h⟩

/-- Settles O3: each reason, read off the refusals of the opcode and of the formats. -/
theorem decodeRefusals : Obligations.DecodeRefusals := by
  intro n w
  simp only [decode_eq_error, decodeEdge_eq_error, decodeTxreq_eq_error, decodeRead_eq_error]
  refine ⟨?illegalOpcode, ?reservedBits, ?elapsedTooWide, ?badView⟩
  case illegalOpcode => simp [illegalOpcode, opcodeField]
  case reservedBits => simp [bareOpcode, opcodeField]
  case elapsedTooWide => simp [opcodeField]
  case badView => simp [opcodeField]

/-- Settles O7, from what the fetch takes off the queue. -/
theorem stepRunsDecodedInstruction : Obligations.StepRunsDecodedInstruction := by
  intro s w ws i hstimulus hdecode
  simp only [step, fetchWord_cons s hstimulus, hdecode]
  rfl

end Sys2Proof.Machine
end

section
/-! SUPPORT. The pulse train of a frame (spec/30_encoding.md R72), interval by interval and as a list: the training
burst and the silence, two intervals a bit, the terminating mark. -/

namespace Sys2Proof.Machine

variable (c : Config) (f : Frame)

section Intervals

@[simp] theorem pulse_training : pulse c f 0 = .mark c.trainUs := rfl

@[simp] theorem pulse_silence : pulse c f 1 = .space c.silenceUs := rfl

@[simp] theorem pulse_last : pulse c f 98 = .mark c.shortUs := rfl

theorem pulse_bitMark {k : Nat} (hk : k < 48) : pulse c f (2 + 2 * k) = .mark c.shortUs := by
  have h1 : 2 + 2 * k ≠ 1 := by omega
  have h98 : 2 + 2 * k ≠ 98 := by omega
  have heven : (2 + 2 * k) % 2 = 0 := by omega
  simp [pulse, h1, h98, heven]

theorem pulse_bitSpace {k : Nat} (hk : k < 48) :
    pulse c f (3 + 2 * k) = .space (if frameBit f k then c.longUs else c.shortUs) := by
  have h1 : 3 + 2 * k ≠ 1 := by omega
  have h98 : 3 + 2 * k ≠ 98 := by omega
  have hodd : (3 + 2 * k) % 2 ≠ 0 := by omega
  have hbit : (3 + 2 * k - 2) / 2 = k := by omega
  simp only [pulse, h1, h98, hodd, hbit, if_false, Nat.add_eq_zero_iff, OfNat.ofNat_ne_zero, false_and]
  split <;> rfl

@[simp] theorem pulseTrain_length : (pulseTrain c f).length = 99 := by simp [pulseTrain]

theorem pulseTrain_getElem? {i : Nat} (hi : i < 99) : (pulseTrain c f)[i]? = some (pulse c f i) := by
  simp [pulseTrain, List.getElem?_range hi]

end Intervals

section Shape

/-- The two intervals of bit `k`. -/
def bitIntervals (k : Nat) : List PulseInterval :=
  [.mark c.shortUs, .space (if frameBit f k then c.longUs else c.shortUs)]

/-- The pulse train without its terminating mark. -/
def trainBody : List PulseInterval :=
  .mark c.trainUs :: .space c.silenceUs :: (List.range 48).flatMap (bitIntervals c f)

/-- Twice as many numbers, two at a time. -/
theorem map_range_two_mul {α : Type} (g : Nat → α) (n : Nat) :
    (List.range (2 * n)).map g = (List.range n).flatMap fun k => [g (2 * k), g (2 * k + 1)] := by
  induction n with
  | zero => rfl
  | succ n ih =>
    rw [show 2 * (n + 1) = 2 * n + 1 + 1 by omega, List.range_succ, List.range_succ, List.map_append,
      List.map_append, ih, List.range_succ, List.flatMap_append]
    simp

/-- Intervals 2 to 97 are those of the 48 bits in order. -/
theorem map_pulse_bits :
    (List.range 96).map (fun i => pulse c f (2 + i)) = (List.range 48).flatMap (bitIntervals c f) := by
  refine (map_range_two_mul _ 48).trans (List.flatMap_congr fun k hk => ?_)
  have hk : k < 48 := List.mem_range.1 hk
  rw [bitIntervals, ← pulse_bitMark c f hk, ← pulse_bitSpace c f hk, show 2 + (2 * k + 1) = 3 + 2 * k by omega]

/-- The train is its body and the terminating mark. -/
theorem pulseTrain_eq : pulseTrain c f = trainBody c f ++ [.mark c.shortUs] := by
  have hrange : List.range 99 = [0, 1] ++ (List.range 96).map (2 + ·) ++ [98] := rfl
  rw [pulseTrain, hrange, List.map_append, List.map_append, List.map_map]
  exact congrArg (fun bits => [.mark c.trainUs, .space c.silenceUs] ++ bits ++ [.mark c.shortUs]) (map_pulse_bits c f)

theorem trainBody_length : (trainBody c f).length = 98 := by
  have hlength := pulseTrain_length c f
  rw [pulseTrain_eq, List.length_append] at hlength
  exact Nat.succ.inj hlength

end Shape

end Sys2Proof.Machine
end

section
/-! SUPPORT. The time of a pulse train, counted by the 1 bits of its frame, and the 24 of an encoded frame
(spec/43_transmit.md R181). -/

namespace Sys2Proof.Machine

variable (c : Config) (f : Frame)

section Time

/-- Every bit of some is one or not. -/
theorem countP_add_countP_not (p : Nat → Bool) (n : Nat) :
    (List.range n).countP p + (List.range n).countP (fun k => !p k) = n := by
  simpa using (List.length_eq_countP_add_countP p (l := List.range n)).symm

/-- Each bit takes a short mark, and a long or a short space. -/
theorem sum_intervalUs_bits (ks : List Nat) :
    ((ks.flatMap (bitIntervals c f)).map intervalUs).sum =
      ks.length * c.shortUs + ks.countP (frameBit f) * c.longUs + ks.countP (fun k => !frameBit f k) * c.shortUs := by
  induction ks with
  | nil => simp
  | cons k ks ih =>
    rw [List.flatMap_cons, List.map_append, List.sum_append, ih]
    cases hbit : frameBit f k with
    | false =>
      simp [bitIntervals, intervalUs, hbit]
      ring
    | true =>
      simp [bitIntervals, intervalUs, hbit]
      ring

/-- Each bit has its short mark of carrier. -/
theorem sum_carrierUs_bits (ks : List Nat) :
    ((ks.flatMap (bitIntervals c f)).map carrierUs).sum = ks.length * c.shortUs := by
  induction ks with
  | nil => simp
  | cons k ks ih =>
    rw [List.flatMap_cons, List.map_append, List.sum_append, ih]
    simp only [bitIntervals, carrierUs, List.map_cons, List.map_nil, List.sum_cons, List.sum_nil, List.length_cons]
    ring

theorem sum_intervalUs_pulseTrain :
    ((pulseTrain c f).map intervalUs).sum =
      c.trainUs + c.silenceUs + 49 * c.shortUs + (List.range 48).countP (frameBit f) * c.longUs +
        (48 - (List.range 48).countP (frameBit f)) * c.shortUs := by
  have hzeros : 48 - (List.range 48).countP (frameBit f) = (List.range 48).countP (fun k => !frameBit f k) := by
    have := countP_add_countP_not (frameBit f) 48
    omega
  rw [pulseTrain_eq, trainBody, hzeros]
  simp only [List.cons_append, List.map_cons, List.map_append, List.map_nil, List.sum_cons, List.sum_append,
    List.sum_nil, intervalUs, sum_intervalUs_bits, List.length_range]
  ring

theorem sum_carrierUs_pulseTrain : ((pulseTrain c f).map carrierUs).sum = c.trainUs + 49 * c.shortUs := by
  rw [pulseTrain_eq, trainBody]
  simp only [List.cons_append, List.map_cons, List.map_append, List.map_nil, List.sum_cons, List.sum_append,
    List.sum_nil, carrierUs, sum_carrierUs_bits, List.length_range]
  ring

end Time

section Ones

/-- Of two complementary halves exactly one half is ones. -/
theorem countP_range_of_complement {p : Nat → Bool} {n : Nat} (h : ∀ m < n, p (n + m) = !p m) :
    (List.range (n + n)).countP p = n := by
  have hupper : ((List.range n).map (n + ·)).countP p = (List.range n).countP (fun m => !p m) := by
    rw [List.countP_map]
    exact List.countP_congr fun m hm => by simp [h m (List.mem_range.1 hm)]
  rw [List.range_add, List.countP_append, hupper, countP_add_countP_not]

/-- Bytes 1, 3 and 5 of an encoded frame complement the bytes before them (R171). -/
theorem encodeFrame_get_odd (a : Byte) (c : Command) {j : Nat} (hj : j < 3) :
    (encodeFrame a c).get (2 * j + 1) = (encodeFrame a c).get (2 * j) ^^^ 0xFF := by
  interval_cases j <;> rfl

/-- The bits of a complemented byte, sent eight places after those of the byte, are their complements (R71, R171). -/
theorem frameBit_encodeFrame_complement (a : Byte) (c : Command) {j m : Nat} (hj : j < 3) (hm : m < 8) :
    frameBit (encodeFrame a c) (16 * j + (8 + m)) = !frameBit (encodeFrame a c) (16 * j + m) := by
  have hodd : (16 * j + (8 + m)) / 8 = 2 * j + 1 := by omega
  have heven : (16 * j + m) / 8 = 2 * j := by omega
  have hplace : (16 * j + (8 + m)) % 8 = m := by omega
  have hplace' : (16 * j + m) % 8 = m := by omega
  have hones : (0xFF : Byte).getLsbD (7 - m) = true := by interval_cases m <;> rfl
  rw [frameBit, frameBit, hodd, heven, hplace, hplace', encodeFrame_get_odd a c hj, BitVec.getLsbD_xor, hones,
    Bool.xor_true]

/-- Half of the 48 bits of an encoded frame are ones (R171, R181). -/
theorem countP_frameBit_encodeFrame (a : Byte) (c : Command) :
    (List.range 48).countP (frameBit (encodeFrame a c)) = 24 := by
  have hpair : ∀ j < 3, ((List.range (8 + 8)).map (16 * j + ·)).countP (frameBit (encodeFrame a c)) = 8 := by
    intro j hj
    rw [List.countP_map]
    exact countP_range_of_complement fun m hm => frameBit_encodeFrame_complement a c hj hm
  have hrange : List.range 48 =
      (List.range (8 + 8)).map (16 * 0 + ·) ++ (List.range (8 + 8)).map (16 * 1 + ·) ++
        (List.range (8 + 8)).map (16 * 2 + ·) := rfl
  rw [hrange, List.countP_append, List.countP_append, hpair 0 (by decide), hpair 1 (by decide), hpair 2 (by decide)]

end Ones

end Sys2Proof.Machine
end

section
/-! SUPPORT. A transmission from its request to its end: the state after each TXSTEP (spec/43_transmit.md R170, R174,
R178). -/

namespace Sys2Proof.Machine

theorem state_eq_of_fields {s t : State} (hcfg : s.cfg = t.cfg) (hrx : s.rx = t.rx) (hmb : s.mb = t.mb)
    (hcap : s.cap = t.cap) (htx : s.tx = t.tx) (hstimulus : s.stimulus = t.stimulus) (htrace : s.trace = t.trace)
    (hresult : s.result = t.result) : s = t := by
  cases s
  cases t
  simp_all

/-- The first instruction of a run answers the state the rest starts from. -/
theorem execAll_cons {i : Instr} {s t : State} (is : List Instr) (h : exec i s = .next t) :
    execAll (i :: is) s = execAll is t := by simp [execAll, h]

/-- One run after the other. -/
theorem execAll_append {is : List Instr} {s t : State} (js : List Instr) (h : execAll is s = .next t) :
    execAll (is ++ js) s = execAll js t := by
  induction is generalizing s with
  | nil =>
    cases h
    rfl
  | cons i is ih =>
    simp only [execAll] at h
    split at h
    · next s' hi =>
      rw [List.cons_append, execAll_cons _ hi]
      exact ih h
    · cases h
    · cases h

variable (a : Byte) (c : Command) (s : State)

/-- The state after TXREQ and `k` intervals of its transmission (R170, R174). -/
def transmitting (k : Nat) : State :=
  { s with
    rx := txreqRx s.cfg.txRxPolicy s.rx
    cap := { s.cap with capEnabled := false }
    tx := { txActive := true, txIndex := BitVec.ofNat 7 k, txFrame := encodeFrame a c, carrier := false }
    trace := s.trace ++ ((List.range k).map (pulse s.cfg (encodeFrame a c))).map intervalEvent
    result := .completed }

/-- TXREQ leads to the first interval (R170). -/
theorem exec_txreq_eq_transmitting (hactive : s.tx.txActive = false) (hwait : s.rx.rxState ≠ .commandReceived)
    (hcarrier : s.tx.carrier = false) : exec (.txreq a c) s = .next (transmitting a c s 0) := by
  have henabled : enabled (.txreq a c) s = true := (foregroundFree_iff s).2 ⟨hactive, hwait⟩
  rw [exec_txreq_of_enabled henabled, completed]
  refine congrArg _ (state_eq_of_fields rfl rfl rfl rfl ?tx rfl ?trace rfl)
  case tx => simp [transmitting, hcarrier]
  case trace => simp [transmitting]

/-- TXSTEP leads from each interval to the next (R174). -/
theorem exec_txstep_transmitting {k : Nat} (hk : k ≤ 98) :
    exec .txstep (transmitting a c s k) = .next (transmitting a c s (k + 1)) := by
  have hindex : (transmitting a c s k).tx.txIndex.toNat = k := Nat.mod_eq_of_lt (show k < 2 ^ 7 by omega)
  rw [exec_txstep_of_interval rfl (hindex.trans_le hk), completed]
  refine congrArg _ (state_eq_of_fields ?cfg ?rx ?mb ?cap ?tx ?stimulus ?trace rfl)
  case tx =>
    rw [State.withResult_tx, txEmit_tx _ rfl]
    simp [transmitting, BitVec.ofNat_add]
  case trace =>
    rw [State.withResult_trace, txEmit_trace, hindex]
    simp [transmitting, List.range_succ]
  all_goals simp [transmitting]

/-- `n` TXSTEP send the next `n` intervals, while so many are left (R174). -/
theorem execAll_txsteps_transmitting {k n : Nat} (h : k + n ≤ 99) :
    execAll (List.replicate n .txstep) (transmitting a c s k) = .next (transmitting a c s (k + n)) := by
  induction n generalizing k with
  | zero => rfl
  | succ n ih =>
    rw [List.replicate_succ, execAll_cons _ (exec_txstep_transmitting a c s (by omega)), ih (by omega),
      show k + 1 + n = k + (n + 1) by omega]

/-- The TXSTEP after the last interval enables the receive path and re-arms the capture (R174, R178). -/
theorem exec_txstep_transmitting_end :
    exec .txstep (transmitting a c s 99) = .next ((txFinish (transmitting a c s 99)).withResult .completed) :=
  exec_txstep_of_end rfl (show 98 < (99 : BitVec 7).toNat by decide)

/-- A transmission runs to its end (R170, R174, R178). -/
theorem execAll_transmission (hactive : s.tx.txActive = false) (hwait : s.rx.rxState ≠ .commandReceived)
    (hcarrier : s.tx.carrier = false) :
    execAll (transmission a c) s = .next ((txFinish (transmitting a c s 99)).withResult .completed) := by
  have hsteps : List.replicate 100 Instr.txstep = List.replicate 99 .txstep ++ [.txstep] := rfl
  rw [transmission, execAll_cons _ (exec_txreq_eq_transmitting a c s hactive hwait hcarrier), hsteps,
    execAll_append _ (execAll_txsteps_transmitting a c s (k := 0) (n := 99) (by decide)),
    execAll_cons _ (exec_txstep_transmitting_end a c s)]
  rfl

end Sys2Proof.Machine
end

section
/-! SUPPORT. The edges of a pulse train on the line (spec/44_capture_dispatch.md R212): the end of the idle gap and the
end of every interval, at a legal configuration with the counts of `toTicks`. -/

namespace Sys2Proof.Machine

variable (c : Config)

section Edges

/-- The levels of the bits' intervals alternate, from a mark after a high line to the last mark: every interval ends
with an edge. -/
theorem edgesFrom_bits (ct : Config) (f : Frame) (us last : Nat) (ks : List Nat) :
    edgesFrom c .high us (ks.flatMap (bitIntervals ct f) ++ [PulseInterval.mark last]) =
      edgeStep c .falling us :: (ks.flatMap (bitIntervals ct f) ++ [PulseInterval.mark last]).map (intervalEdge c) := by
  induction ks generalizing us with
  | nil => rfl
  | cons k ks ih =>
    rw [List.flatMap_cons, List.append_assoc]
    exact congrArg (fun es => edgeStep c .falling us :: edgeStep c .rising ct.shortUs :: es) (ih _)

/-- The edges of a frame's pulse train: the end of the idle gap, then the end of every interval. -/
theorem lineEdges_pulseTrain (ct : Config) (f : Frame) (idleUs : Nat) :
    lineEdges c idleUs (pulseTrain ct f) =
      edgeStep c .falling idleUs :: (pulseTrain ct f).map (intervalEdge c) := by
  rw [pulseTrain_eq]
  exact congrArg (fun es => edgeStep c .falling idleUs :: edgeStep c .rising ct.trainUs :: es)
    (edgesFrom_bits c ct f ct.silenceUs ct.shortUs (List.range 48))

/-- Without the last edge: the end of the idle gap and of every interval but the terminating mark. -/
theorem lineEdges_pulseTrain_take (ct : Config) (f : Frame) (idleUs : Nat) :
    (lineEdges c idleUs (pulseTrain ct f)).take 99 =
      edgeStep c .falling idleUs :: (trainBody ct f).map (intervalEdge c) := by
  rw [lineEdges_pulseTrain, pulseTrain_eq, List.map_append, ← List.cons_append]
  exact List.take_left' (by simp [trainBody_length])

end Edges

section Counts

/-- The timer shows `toTicks` while that fits. -/
theorem elapsedCount_of_lt {us : Nat} (h : toTicks c us < 2 ^ c.tickBits) : elapsedCount c us = toTicks c us := if_pos h

variable {c}

/-- At a legal configuration the edge after a nominal duration counts the ticks of that duration (R9, R212). -/
theorem edgeStep_nominal (h : configLegal c = true) (d : Dir) (k : DurationClass) :
    edgeStep c d (nominalUs c k) = .edge d (ticksOperand c (nominalUs c k)) := by
  rw [edgeStep, elapsedCount_of_lt c (nominal_lt c h k).1, ticksOperand]

/-- Some edges served one by one are the `rx` of each (R88). -/
theorem servedByPoll_cons (d : Dir) (e : Ticks) (es : List Instr) :
    servedByPoll (.edge d e :: es) = pseudoRx d e ++ servedByPoll es := rfl

theorem servedByPoll_flatMap {α : Type} (g : α → List Instr) (xs : List α) :
    servedByPoll (xs.flatMap g) = xs.flatMap fun x => servedByPoll (g x) := List.flatMap_assoc

/-- The two `rx` of a bit are the edges that end its intervals (R88, R212). -/
theorem servedByPoll_bitIntervals (h : configLegal c = true) (f : Frame) (k : Nat) :
    servedByPoll ((bitIntervals c f k).map (intervalEdge c)) = pseudoBit c f k := by
  have hmark : intervalEdge c (.mark c.shortUs) = .edge .rising (ticksOperand c c.shortUs) :=
    edgeStep_nominal h .rising .shortMark
  have hspace : intervalEdge c (.space (if frameBit f k then c.longUs else c.shortUs)) =
      .edge .falling (ticksOperand c (if frameBit f k then c.longUs else c.shortUs)) := by
    cases frameBit f k with
    | false => exact edgeStep_nominal h .falling .shortSpace
    | true => exact edgeStep_nominal h .falling .longSpace
  rw [bitIntervals, List.map_cons, List.map_singleton, hmark, hspace]
  rfl

end Counts

end Sys2Proof.Machine
end

section
/-! The obligations of spec/30_encoding.md on pulse trains, and what spec/43_transmit.md says of them. -/

namespace Sys2Proof.Machine

/-- Settles O32, from the intervals at their places. -/
theorem pulseTrainTable : Obligations.PulseTrainTable := by
  intro c f
  refine ⟨pulseTrain_length c f, pulseTrain_getElem? c f (by decide), pulseTrain_getElem? c f (by decide), ?bits,
    pulseTrain_getElem? c f (by decide)⟩
  case bits =>
    intro k hk
    rw [pulseTrain_getElem? c f (by omega), pulseTrain_getElem? c f (by omega), pulse_bitMark c f hk,
      pulse_bitSpace c f hk]
    exact ⟨rfl, rfl⟩

/-- Settles O34, from the time of each bit and the 24 ones of an encoded frame. -/
theorem transmissionTime : Obligations.TransmissionTime := by
  refine ⟨fun c f => ⟨sum_intervalUs_pulseTrain c f, sum_carrierUs_pulseTrain c f⟩, countP_frameBit_encodeFrame, ?_⟩
  intro a c
  rw [sum_intervalUs_pulseTrain, sum_carrierUs_pulseTrain, countP_frameBit_encodeFrame]
  exact ⟨rfl, rfl⟩

/-- Settles O33: the request, the 99 intervals one by one, the end. -/
theorem transmissionEmitsTrain : Obligations.TransmissionEmitsTrain := by
  intro a c s hactive hwait hcarrier
  rw [execAll_transmission a c s hactive hwait hcarrier]
  exact congrArg _ (state_eq_of_fields rfl rfl rfl rfl rfl rfl (txFinish_trace _) rfl)

/-- Settles O6: the edges of the line model's train, part by part the `rx` of `rxframe`. -/
theorem rxframeIsLineModel : Obligations.RxframeIsLineModel := by
  intro c idleUs f h
  have htrain : intervalEdge c (.mark c.trainUs) = .edge .rising (ticksOperand c c.trainUs) :=
    edgeStep_nominal h .rising .trainingPulse
  have hsilence : intervalEdge c (.space c.silenceUs) = .edge .falling (ticksOperand c c.silenceUs) :=
    edgeStep_nominal h .falling .silenceAfterTraining
  rw [lineEdges_pulseTrain_take, trainBody, List.map_cons, List.map_cons, List.map_flatMap, htrain, hsilence,
    edgeStep, servedByPoll_cons, servedByPoll_cons, servedByPoll_cons, servedByPoll_flatMap]
  simp only [servedByPoll_bitIntervals h, pseudoRxframe, List.append_assoc]

end Sys2Proof.Machine
end

section
/-! SUPPORT. The classifier's tests (spec/40_classifier.md R102 to R104): what a window refuses, that it holds its own
nominal count, and that every class passes what its window holds. -/

namespace Sys2Proof.Machine

section Windows

variable (c : Config) (us : Nat)

/-- The ticks of a nominal duration are not below its window (R107). -/
theorem lo_le_toTicks : lo c us ≤ toTicks c us := toTicks_le_toTicks c (Nat.sub_le us c.marginUs)

/-- The ticks of a nominal duration are not above its window (R107). -/
theorem toTicks_le_hi : toTicks c us ≤ hi c us := toTicks_le_toTicks c (Nat.le_add_right us c.marginUs)

/-- A window refuses the counts on either side of it, and no other (R102). -/
theorem inWindow_eq_false_iff (e : Ticks) :
    inWindow c e us = false ↔ e.toNat < lo c us ∨ hi c us < e.toNat := by
  rw [Bool.eq_false_iff, ne_eq, inWindow_iff, not_and_or, Nat.not_le, Nat.not_le]

end Windows

section Classes

variable {c : Config}

/-- Every class passes the counts of its window; the bit mark, whose test has the upper bound alone, passes more (R103,
R104). -/
theorem classify_of_inWindow {k : DurationClass} {e : Ticks} (h : inWindow c e (nominalUs c k) = true) :
    classify c k e = true := by
  cases k with
  | shortMark =>
    obtain ⟨hlo, hhi⟩ := (inWindow_iff c e c.shortUs).1 h
    exact (classify_shortMark_iff c e).2 ⟨hhi, fun _ => hlo⟩
  | trainingPulse => exact h
  | silenceAfterTraining => exact h
  | longSpace => exact h
  | shortSpace => exact h

/-- At a legal configuration a nominal duration's operand is its count, with nothing cut off (R9). -/
theorem ticksOperand_nominal_toNat (h : configLegal c = true) (k : DurationClass) :
    (ticksOperand c (nominalUs c k)).toNat = toTicks c (nominalUs c k) := by
  obtain ⟨hlt, hbits⟩ := nominal_lt c h k
  have hword : toTicks c (nominalUs c k) < 2 ^ 24 := hlt.trans_le (Nat.pow_le_pow_right Nat.two_pos hbits)
  rw [ticksOperand, BitVec.toNat_ofNat, Nat.mod_eq_of_lt hword]

/-- A jitter-free duration passes the test of its class (R107). -/
theorem classify_ticksOperand_nominal (h : configLegal c = true) (k : DurationClass) :
    classify c k (ticksOperand c (nominalUs c k)) = true := by
  apply classify_of_inWindow
  rw [inWindow_iff, ticksOperand_nominal_toNat h k]
  exact ⟨lo_le_toTicks c _, toTicks_le_hi c _⟩

end Classes

end Sys2Proof.Machine
end

section
/-! The obligations of spec/40_classifier.md. -/

namespace Sys2Proof.Machine

/-- Settles O41: the quotient is between its two multiples of the divisor, and keeps the order of what it divides. -/
theorem toTicksTruncates : Obligations.ToTicksTruncates := by
  refine ⟨fun c us => ⟨Nat.div_mul_le_self _ _, ?below⟩, fun c _ _ => toTicks_le_toTicks c, ?zero, ?identity⟩
  case below => exact (Nat.div_lt_iff_lt_mul (by decide)).1 (Nat.lt_succ_self (toTicks c us))
  case zero =>
    intro c
    rw [toTicks, Nat.zero_mul, Nat.zero_div]
  case identity =>
    intro c us hrate
    rw [toTicks, hrate]
    exact Nat.mul_div_cancel us (by decide)

/-- Settles O42: the bounds lie in their own window, since they are in order, and the window refuses what lies beyond
either. -/
theorem windowBoundaries : Obligations.WindowBoundaries := by
  intro c e us
  have hle : lo c us ≤ hi c us := lo_le_hi c us
  refine ⟨fun _ => rfl, rfl, ?atLo, ?atHi, ?pastHi, ?belowLo⟩
  case atLo =>
    intro he
    exact (inWindow_iff c e us).2 ⟨he.ge, he.trans_le hle⟩
  case atHi =>
    intro he
    exact (inWindow_iff c e us).2 ⟨hle.trans_eq he.symm, he.le⟩
  case pastHi =>
    intro he
    exact (inWindow_eq_false_iff c us e).2 (.inr (by omega))
  case belowLo =>
    intro he
    exact (inWindow_eq_false_iff c us e).2 (.inl (by omega))

/-- Settles O43: a nominal count lies in its own window, and a short unit below the LongSpace window is refused there. -/
theorem nominalDurationsClassify : Obligations.NominalDurationsClassify := by
  intro c h
  refine ⟨classify_ticksOperand_nominal h, fun hshort => (inWindow_eq_false_iff c c.longUs _).2 (.inl ?_)⟩
  have hcount : (ticksOperand c c.shortUs).toNat = toTicks c c.shortUs := ticksOperand_nominal_toNat h .shortSpace
  exact hcount.trans_lt hshort

end Sys2Proof.Machine
end

section
/-! SUPPORT. A bit appended to the receive fields (spec/41_receive.md R127): the byte it is shifted into as a number,
the count of the bits held, and the receive state after it. -/

namespace Sys2Proof.Machine

/-- A bit shifted in at the low end, as a number (R127). -/
theorem shiftIn_eq_ofNat (x : Byte) (b : Bool) :
    x <<< 1 ||| (BitVec.ofBool b).setWidth 8 = BitVec.ofNat 8 (2 * x.toNat + b.toNat) := by
  have hdisjoint : x <<< 1 &&& (BitVec.ofBool b).setWidth 8 = 0 := by
    ext k hk
    rcases k with _ | k <;> simp
  rw [← BitVec.add_eq_or_of_and_eq_zero _ _ hdisjoint]
  refine BitVec.eq_of_toNat_eq ?_
  have hb := b.toNat_le
  simp only [BitVec.toNat_add, BitVec.toNat_shiftLeft, BitVec.toNat_setWidth, BitVec.toNat_ofBool, BitVec.toNat_ofNat]
  omega

/-- A three-bit counter below its largest value counts one more (R24, R25). -/
theorem counter_succ_toNat {n : BitVec 3} (h : n.toNat < 7) : (n + 1).toNat = n.toNat + 1 :=
  BitVec.toNat_add_of_lt (y := 1) (show n.toNat + 1 < 8 by omega)

section Append
variable {r : Rx} (b : Bool)

/-- While a byte is left to store, an appended bit is one bit more (R24, R25, R127). -/
theorem collectedBits_appendBit (h : r.byteCount.toNat < 7) :
    collectedBits (appendBit b r) = collectedBits r + 1 := by
  by_cases hlast : r.bitCount.toNat + 1 = 8
  · rw [appendBit_last r b hlast]
    show 8 * (r.byteCount + 1).toNat + 0 = 8 * r.byteCount.toNat + r.bitCount.toNat + 1
    rw [counter_succ_toNat h]
    omega
  · have hbits := r.bitCount.isLt
    rw [appendBit_within r b hlast]
    show 8 * r.byteCount.toNat + (r.bitCount + 1).toNat = 8 * r.byteCount.toNat + r.bitCount.toNat + 1
    rw [counter_succ_toNat (by omega)]
    rfl

/-- Only the last bit of the sixth byte completes a frame (R127). -/
theorem appendBit_completes (hstate : r.rxState ≠ .commandReceived)
    (h : (appendBit b r).rxState = .commandReceived) : r.byteCount = 5 ∧ r.bitCount = 7 := by
  by_cases hlast : r.bitCount.toNat + 1 = 8
  · rw [appendBit_last r b hlast] at h
    by_cases hsixth : r.byteCount.toNat + 1 = 6
    · exact ⟨BitVec.eq_of_toNat_eq (Nat.succ.inj hsixth), BitVec.eq_of_toNat_eq (Nat.succ.inj hlast)⟩
    · exact absurd ((if_neg hsixth).symm.trans h) hstate
  · rw [appendBit_within r b hlast] at h
    exact absurd h hstate

end Append

end Sys2Proof.Machine
end

section
/-! SUPPORT. A POLL that takes an event (spec/41_receive.md R120): which receive rule it runs, and the state it leaves
when the rule writes some receive fields, none, or recovers from an anomaly. -/

namespace Sys2Proof.Machine

variable (s : State)

/-- A taken event whose rule writes the receive fields alone (R120, R206). -/
theorem completed_withRx_take (r : Rx) : completed ((take s).withRx r) = .next (polled s r []) := by
  rw [completed]
  exact congrArg _ (state_eq_of_fields rfl rfl rfl rfl rfl rfl (List.append_nil _).symm rfl)

/-- A taken event whose rule writes nothing (R125). -/
theorem completed_take : completed (take s) = .next (polled s s.rx []) := completed_withRx_take s s.rx

/-- A taken event that is an anomaly (R128). -/
theorem completed_anomaly_take (k : AnomalyCause) :
    completed (anomaly k (take s)) = .next (polled s (recoveredRx s) [.anomaly k]) := rfl

variable {s}

section Rules
variable (d : Dir) (e : Ticks)

/-- In Reset an event goes to the rule of R123. -/
theorem receiveEvent_of_reset (h : s.rx.rxState = .reset) : receiveEvent d e s = stepReset d e s := by
  simp [receiveEvent, h]

/-- In TrainingReceived an event goes to the rule of R124. -/
theorem receiveEvent_of_training (h : s.rx.rxState = .trainingReceived) :
    receiveEvent d e s = stepTraining d e s := by
  simp [receiveEvent, h]

/-- In ReceivingBits a Rising edge ends a mark (R125). -/
theorem receiveEvent_rising_of_bits (h : s.rx.rxState = .receivingBits) :
    receiveEvent .rising e s = stepMark e s := by
  simp [receiveEvent, h]

/-- In ReceivingBits a Falling edge ends a space (R126). -/
theorem receiveEvent_falling_of_bits (h : s.rx.rxState = .receivingBits) :
    receiveEvent .falling e s = stepSpace e s := by
  simp [receiveEvent, h]

end Rules

/-- A count in neither space window is an anomaly at the end of a space (R126). -/
theorem stepSpace_of_no_window {e : Ticks} (hlong : classify s.cfg .longSpace e = false)
    (hshort : classify s.cfg .shortSpace e = false) : stepSpace e s = anomaly .space s := by
  simp [stepSpace, hlong, hshort]

/-- With no transmission in progress and no frame waiting, POLL takes the pending event (R120, R208). -/
theorem exec_poll_of_free (hactive : s.tx.txActive = false) (hstate : s.rx.rxState ≠ .commandReceived)
    (hpending : s.mb.mbPending = true) :
    exec .poll s = completed (receiveEvent s.mb.mbDir s.mb.mbElapsed (take s)) :=
  exec_poll_of_pending ((foregroundFree_iff s).2 ⟨hactive, hstate⟩) hpending

end Sys2Proof.Machine
end

section
/-! SUPPORT. What a step does to the receive fields (spec/41_receive.md R133, R134). -/

namespace Sys2Proof.Machine

/-- The rows of R134 that lead on towards a frame: what an event of direction `d` and count `e` makes of the receive
fields `r`. -/
inductive RxAdvance (c : Config) (d : Dir) (e : Ticks) (r : Rx) : Rx → Prop
  /-- The training pulse (R123). -/
  | training (hstate : r.rxState = .reset) : RxAdvance c d e r { r with rxState := .trainingReceived }
  /-- The silence after it (R124). -/
  | silence (hstate : r.rxState = .trainingReceived) : RxAdvance c d e r { r with rxState := .receivingBits }
  /-- The space of a bit (R126). -/
  | bit (b : Bool) (hstate : r.rxState = .receivingBits) (hdir : d = .falling)
      (hwindow : inWindow c e c.longUs = true ∨ inWindow c e c.shortUs = true) : RxAdvance c d e r (appendBit b r)

/-- A taken event keeps the receive fields, resets the receive state, or leads on. -/
theorem receiveEvent_rx_cases (d : Dir) (e : Ticks) (s : State) :
    (receiveEvent d e s).rx = s.rx ∨ (receiveEvent d e s).rx.rxState = .reset ∨
    RxAdvance s.cfg d e s.rx (receiveEvent d e s).rx := by
  rcases receiveEvent_cases d e s with
    ⟨hs, -, -, h⟩ | ⟨hs, -, -, h⟩ | ⟨-, -, -, h⟩ | ⟨hs, rfl, b, h⟩ | ⟨-, k, h⟩ | ⟨-, h⟩
  · exact .inr (.inr (h ▸ .training hs))
  · exact .inr (.inr (h ▸ .silence hs))
  · exact .inl (congrArg State.rx h)
  · by_cases hwindow : inWindow s.cfg e s.cfg.longUs = true ∨ inWindow s.cfg e s.cfg.shortUs = true
    · exact .inr (.inr (h ▸ .bit b hs rfl hwindow))
    · obtain ⟨hlong, hshort⟩ := not_or.1 hwindow
      have hanomaly : receiveEvent .falling e s = anomaly .space s :=
        (receiveEvent_falling_of_bits e hs).trans
          (stepSpace_of_no_window (Bool.eq_false_of_not_eq_true hlong) (Bool.eq_false_of_not_eq_true hshort))
      exact .inr (.inl (by rw [hanomaly]; rfl))
  · exact .inr (.inl (by rw [h]; rfl))
  · exact .inl (congrArg State.rx h)

/-- A step keeps the receive fields or resets the receive state, unless it is a POLL that takes an event and leads on
(R38, R133). -/
theorem exec_rx_cases {i : Instr} {s t : State} (h : exec i s = .next t) :
    t.rx = s.rx ∨ t.rx.rxState = .reset ∨
    (i = .poll ∧ s.mb.mbPending = true ∧ RxAdvance s.cfg s.mb.mbDir s.mb.mbElapsed s.rx t.rx) := by
  cases i with
  | edge d e =>
    obtain ⟨hrx, -⟩ := execEdge_frame h
    exact .inl hrx
  | poll =>
    rcases execPoll_cases h with ⟨-, rfl⟩ | ⟨-, -, rfl⟩ | ⟨-, hpending, rfl⟩
    · exact .inl rfl
    · exact .inl rfl
    · exact (receiveEvent_rx_cases s.mb.mbDir s.mb.mbElapsed (take s)).imp_right
        (Or.imp_right fun hadvance => ⟨rfl, hpending, hadvance⟩)
  | complete =>
    rcases execComplete_cases h with ⟨-, rfl⟩ | ⟨-, rfl⟩
    · exact .inl rfl
    · exact .inr (.inl rfl)
  | txreq a c =>
    rcases execTxreq_cases h with ⟨-, rfl⟩ | ⟨-, rfl⟩
    · exact .inl rfl
    · cases hp : s.cfg.txRxPolicy with
      | reset => exact .inr (.inl (by simp [txreqRx]))
      | preserve => exact .inl (by simp [txreqRx])
  | txstep =>
    obtain ⟨hrx, -⟩ := execTxstep_frame h
    exact .inl hrx
  | read v =>
    obtain rfl := execRead_cases h
    exact .inl rfl
  | reset =>
    obtain rfl := execReset_cases h
    exact .inr (.inl rfl)

section Advance
variable {c : Config} {d : Dir} {e : Ticks} {r r' : Rx}

/-- Only the last bit of a frame leads to CommandReceived (R127, R133). -/
theorem RxAdvance.completes (h : RxAdvance c d e r r') (hr : r.rxState ≠ .commandReceived)
    (hr' : r'.rxState = .commandReceived) :
    r.rxState = .receivingBits ∧ r.byteCount = 5 ∧ r.bitCount = 7 ∧ d = .falling ∧
    (inWindow c e c.longUs = true ∨ inWindow c e c.shortUs = true) := by
  cases h with
  | training _ => exact nomatch hr'
  | silence _ => exact nomatch hr'
  | bit b hstate hdir hwindow =>
    obtain ⟨hbytes, hbits⟩ := appendBit_completes b hr hr'
    exact ⟨hstate, hbytes, hbits, hdir, hwindow⟩

/-- A frame starts with no bit, and gets its bits one by one (R122, R127). -/
theorem RxAdvance.collects {bits : Nat} (h : RxAdvance c d e r r') (hr : RxSound bits r)
    (hr' : r'.rxState = .receivingBits ∨ r'.rxState = .commandReceived) :
    (r.rxState = .trainingReceived ∧ r'.rxState = .receivingBits ∧ collectedBits r' = 0) ∨
    (r.rxState = .receivingBits ∧ collectedBits r' = collectedBits r + 1) := by
  cases h with
  | training _ => simp at hr'
  | silence hstate =>
    obtain ⟨-, -, hbits, hbytes⟩ := hr.scratch (.inr hstate)
    exact .inl ⟨hstate, rfl, by simp [collectedBits, hbits, hbytes]⟩
  | bit b hstate _ _ =>
    have hbytes := hr.assembling hstate
    exact .inr ⟨hstate, collectedBits_appendBit b (by omega)⟩

end Advance

end Sys2Proof.Machine
end

section
/-! SUPPORT. The commands a step hands to the dispatcher (spec/41_receive.md R132), and the state COMPLETE leaves
(R130). -/

namespace Sys2Proof.Machine

variable {i : Instr} {s t : State}

/-- The events a step appended are its new ones (R15). -/
theorem newEvents_eq {es : List Event} (h : t.trace = s.trace ++ es) : newEvents s t = es := by
  rw [newEvents, h, List.drop_left]

/-- A step whose events hand over no command (R132). -/
theorem decodedCommands_newEvents_eq_nil {es : List Event} (h : t.trace = s.trace ++ es)
    (hes : decodedCommands es = []) : decodedCommands (newEvents s t) = [] := by
  rw [newEvents_eq h, hes]

/-- A step without events (R132). -/
theorem decodedCommands_newEvents_of_trace_eq (h : t.trace = s.trace) : decodedCommands (newEvents s t) = [] :=
  decodedCommands_newEvents_eq_nil (h.trans (List.append_nil _).symm) rfl

/-- An interval of a transmission hands no command over (R132, R176, R177). -/
theorem decodedCommands_intervalEvent (iv : PulseInterval) : decodedCommands [intervalEvent iv] = [] := by
  cases iv <;> rfl

/-- Every step but COMPLETE hands no command over (R132). -/
theorem decodedCommands_of_ne_complete (hi : i ≠ .complete) (h : exec i s = .next t) :
    decodedCommands (newEvents s t) = [] := by
  cases i with
  | edge d e =>
    rcases execEdge_cases h with ⟨-, rfl⟩ | ⟨-, -, rfl⟩ | ⟨-, -, rfl⟩
    · exact decodedCommands_newEvents_eq_nil rfl rfl
    · exact decodedCommands_newEvents_eq_nil rfl rfl
    · refine decodedCommands_newEvents_eq_nil (captureEdge_trace d e s) ?_
      cases s.mb.mbPending <;> rfl
  | poll =>
    rcases execPoll_cases h with ⟨-, rfl⟩ | ⟨-, -, rfl⟩ | ⟨-, -, rfl⟩
    · exact decodedCommands_newEvents_of_trace_eq rfl
    · exact decodedCommands_newEvents_of_trace_eq rfl
    · obtain ⟨-, -, -, -, -, es, htrace, hes⟩ := receiveEvent_frame s.mb.mbDir s.mb.mbElapsed (take s)
      refine decodedCommands_newEvents_eq_nil htrace ?_
      rcases hes with rfl | ⟨k, rfl⟩ <;> rfl
  | complete => exact absurd rfl hi
  | txreq a c =>
    rcases execTxreq_cases h with ⟨-, rfl⟩ | ⟨-, rfl⟩
    · exact decodedCommands_newEvents_of_trace_eq rfl
    · exact decodedCommands_newEvents_of_trace_eq rfl
  | txstep =>
    rcases execTxstep_cases h with ⟨-, rfl⟩ | ⟨-, -, rfl⟩ | ⟨-, -, rfl⟩
    · exact decodedCommands_newEvents_of_trace_eq rfl
    · exact decodedCommands_newEvents_eq_nil (txEmit_trace s) (decodedCommands_intervalEvent _)
    · exact decodedCommands_newEvents_eq_nil (txFinish_trace s) rfl
  | read v =>
    obtain rfl := execRead_cases h
    exact decodedCommands_newEvents_of_trace_eq rfl
  | reset =>
    obtain rfl := execReset_cases h
    exact decodedCommands_newEvents_eq_nil rfl rfl

/-- The condition of COMPLETE (R208). -/
theorem frameWaiting_iff (s : State) :
    frameWaiting s = true ↔ s.tx.txActive = false ∧ s.rx.rxState = .commandReceived := by
  simp [frameWaiting]

/-- The state COMPLETE leaves, with the counter and the report that depend on the frame (R130, R207). -/
def frameDone (s : State) (count : BitVec 16) (report : Event) : State :=
  { s with
    rx := ⟨.reset, Frame.zero, 0, 0, 0, count⟩
    mb := { s.mb with mbPending := false }
    cap := { s.cap with capPolarity := .falling }
    trace := s.trace ++ [report, .timerReset]
    result := .completed }

/-- A waiting frame that the validator accepts: its command is handed over and the counter cleared (R130, R132). -/
theorem exec_complete_of_accepted {c : Command} (hwaiting : frameWaiting s = true)
    (hframe : validate s.rx.frame s.cfg.devAddr = some c) :
    exec .complete s = .next (frameDone s 0 (.cmdDecoded c)) := by
  rw [exec_complete_of_enabled hwaiting, dispatchFrame, hframe, completed]
  exact congrArg _ (state_eq_of_fields rfl rfl rfl rfl rfl rfl (by simp [frameDone]) rfl)

/-- A waiting frame that the validator rejects: the cause is reported and the counter kept (R130, R155). -/
theorem exec_complete_of_rejected (hwaiting : frameWaiting s = true)
    (hframe : validate s.rx.frame s.cfg.devAddr = none) :
    exec .complete s =
      .next (frameDone s s.rx.resetCount (.reject (rejectCause s.rx.frame s.cfg.devAddr))) := by
  rw [exec_complete_of_enabled hwaiting, dispatchFrame, hframe, completed]
  exact congrArg _ (state_eq_of_fields rfl rfl rfl rfl rfl rfl (by simp [frameDone]) rfl)

end Sys2Proof.Machine
end

section
/-! The obligations of spec/41_receive.md. -/

namespace Sys2Proof.Machine

/-- Settles O20: a bit below the eighth is shifted in, the eighth stores the byte. -/
theorem appendBit_shifts_and_stores : Obligations.AppendBit := by
  intro b r
  constructor
  · intro hbits
    have hcount : r.bitCount + 1 = BitVec.ofNat 3 (r.bitCount.toNat + 1) := by simp [BitVec.ofNat_add]
    rw [appendBit_within r b (by omega), shiftIn_eq_ofNat, hcount]
  · intro hbits hbytes
    rw [appendBit_last r b (by omega), shiftIn_eq_ofNat]
    exact ⟨frame_get_set_same _ _ hbytes, fun j hj => frame_get_set_other _ _ hj.symm,
      counter_succ_toNat (by omega), rfl, rfl, by simp only [Nat.reduceEqDiff], rfl⟩

/-- Settles O23: the receive state is kept, reset or led on, and only the last bit leads to CommandReceived. -/
theorem commandReceivedEntry : Obligations.CommandReceivedEntry := by
  intro i s t h ht hs
  rcases exec_rx_cases h with hkept | hreset | ⟨hpoll, hpending, hadvance⟩
  · exact absurd (hkept ▸ ht) hs
  · exact nomatch hreset.symm.trans ht
  · obtain ⟨hstate, hbytes, hbits, hdir, hwindow⟩ := hadvance.completes hs ht
    exact ⟨hpoll, hstate, hbytes, hbits, hpending, hdir, hwindow⟩

/-- Settles O24: the receive fields are kept, or led on from the empty buffer or by one bit. -/
theorem collectedBitsCountUp : Obligations.CollectedBitsCountUp := by
  intro i s t hs h ht
  obtain ⟨-, hrx, -⟩ := (sound_iff s).1 hs
  rcases exec_rx_cases h with hkept | hreset | ⟨hpoll, -, hadvance⟩
  · exact .inr (.inl hkept)
  · simp [hreset] at ht
  · exact (hadvance.collects hrx ht).imp_right fun hbit => .inr ⟨hpoll, hbit⟩

/-- Settles O49: every other step hands no command over, and COMPLETE the one the validator answers. -/
theorem onlyCompleteDispatches : Obligations.OnlyCompleteDispatches := by
  intro i s t h
  by_cases hi : i = .complete
  · subst hi
    cases hw : frameWaiting s with
    | false =>
      cases (exec_of_not_enabled (i := .complete) hw).symm.trans h
      exact .inl (decodedCommands_newEvents_of_trace_eq rfl)
    | true =>
      obtain ⟨hactive, hstate⟩ := (frameWaiting_iff s).1 hw
      cases hframe : validate s.rx.frame s.cfg.devAddr with
      | none =>
        cases (exec_complete_of_rejected hw hframe).symm.trans h
        exact .inl (decodedCommands_newEvents_eq_nil rfl rfl)
      | some c =>
        cases (exec_complete_of_accepted hw hframe).symm.trans h
        exact .inr ⟨rfl, hactive, hstate, c, rfl, by rw [newEvents_eq rfl]; rfl⟩
  · exact .inl (decodedCommands_of_ne_complete hi h)

/-- Settles O15: with nothing pending POLL completes and does no more. -/
theorem pollIdle : Obligations.PollIdle :=
  fun s hactive hstate hpending => exec_poll_of_idle ((foregroundFree_iff s).2 ⟨hactive, hstate⟩) hpending

/-- Settles O16, by the test of the rule of R123. -/
theorem pollInReset : Obligations.PollInReset := by
  intro s hactive hstate hpending
  rw [exec_poll_of_free hactive (by simp [hstate]) hpending, receiveEvent_of_reset (s := take s) _ _ hstate]
  simp only [stepReset, take_cfg, classify, inWindow_iff]
  split
  · exact completed_withRx_take s _
  · exact completed_anomaly_take s .idle

/-- Settles O17, by the test of the rule of R124. -/
theorem pollInTraining : Obligations.PollInTraining := by
  intro s hactive hstate hpending
  rw [exec_poll_of_free hactive (by simp [hstate]) hpending, receiveEvent_of_training (s := take s) _ _ hstate]
  simp only [stepTraining, take_cfg, classify, inWindow_iff]
  split
  · exact completed_withRx_take s _
  · exact completed_anomaly_take s .silence

/-- Settles O18: the statement's condition is the failure of the bit mark's test. -/
theorem pollMark : Obligations.PollMark := by
  intro s hactive hstate hpending hdir
  have htest : (hi s.cfg s.cfg.shortUs < s.mb.mbElapsed.toNat ∨
      (s.cfg.markLowerCheck = true ∧ s.mb.mbElapsed.toNat < lo s.cfg s.cfg.shortUs)) ↔
      ¬ classify s.cfg .shortMark s.mb.mbElapsed = true := by
    rw [classify_shortMark_iff, not_and_or, Classical.not_imp, Nat.not_le, Nat.not_le]
  rw [exec_poll_of_free hactive (by simp [hstate]) hpending, hdir,
    receiveEvent_rising_of_bits (s := take s) _ hstate, stepMark, take_cfg]
  simp only [htest, ite_not]
  split
  · exact completed_take s
  · exact completed_anomaly_take s .mark

/-- Settles O19, by the tests of the rule of R126 in their order. -/
theorem pollSpace : Obligations.PollSpace := by
  intro s hactive hstate hpending hdir
  rw [exec_poll_of_free hactive (by simp [hstate]) hpending, hdir,
    receiveEvent_falling_of_bits (s := take s) _ hstate]
  simp only [stepSpace, take_cfg, classify, inWindow_iff]
  split
  · exact completed_withRx_take s _
  · split
    · exact completed_withRx_take s _
    · exact completed_anomaly_take s .space

/-- Settles O25: a waiting frame is accepted or rejected by the validator, and with none COMPLETE is not enabled. -/
theorem completeStep : Obligations.CompleteStep := by
  intro s
  constructor
  · intro hactive hstate
    have hw : frameWaiting s = true := (frameWaiting_iff s).2 ⟨hactive, hstate⟩
    cases hframe : validate s.rx.frame s.cfg.devAddr with
    | some c => exact exec_complete_of_accepted hw hframe
    | none => exact exec_complete_of_rejected hw hframe
  · intro hnot
    refine exec_of_not_enabled (i := .complete) (Bool.eq_false_of_not_eq_true fun hw => ?_)
    obtain ⟨hactive, hstate⟩ := (frameWaiting_iff s).1 hw
    rcases hnot with hbusy | hno
    · simp [hactive] at hbusy
    · exact hno hstate

end Sys2Proof.Machine
end

section
/-! SUPPORT. A logical command as a number made of its two bytes (spec/20_memory.md R53). -/

namespace Sys2Proof

theorem command_toNat (c : Command) : c.toNat = 256 * (Command.hi c).toNat + (Command.lo c).toNat := by
  have hlt := c.isLt
  simp only [Command.hi, Command.lo, BitVec.extractLsb'_toNat, Nat.shiftRight_eq_div_pow]
  omega

theorem command_ofBytes_toNat (hi lo : Byte) : (Command.ofBytes hi lo).toNat = 256 * hi.toNat + lo.toNat := by
  rw [command_toNat, command_hi_ofBytes, command_lo_ofBytes]

end Sys2Proof
end

section
/-! SUPPORT. The validator's checks and answers over the bytes of a frame (spec/42_validator.md R150 to R155). -/

namespace Sys2Proof.Machine

variable {f : Frame} {a : Byte} {c : Command}

section Checks

theorem addressAccepted_iff : addressAccepted f a = true ↔ f.get 0 = a ∨ f.get 0 = 0xFF := by
  rw [addressAccepted, Bool.or_eq_true, decide_eq_true_iff, decide_eq_true_iff]
  rfl

theorem complementPair_iff (x y : Byte) : complementPair x y = true ↔ x ^^^ y = 0xFF := decide_eq_true_iff

/-- A byte and its complement as the encoder makes it (R152, R171). -/
theorem complementPair_xor_ones (x : Byte) : complementPair x (x ^^^ 0xFF) = true := by
  rw [complementPair_iff, ← BitVec.xor_assoc, BitVec.xor_self, BitVec.zero_xor]

end Checks

section Answers

/-- The three pairs of a frame, byte by byte (R150). -/
theorem complementPairs_iff :
    (∀ j < 3, complementPair (f.get (2 * j)) (f.get (2 * j + 1)) = true) ↔
      complementPair (f.get 0) (f.get 1) = true ∧ complementPair (f.get 2) (f.get 3) = true ∧
        complementPair (f.get 4) (f.get 5) = true :=
  ⟨fun h => ⟨h 0 (by decide), h 1 (by decide), h 2 (by decide)⟩,
    fun ⟨_, _, _⟩ j _ => by interval_cases j <;> assumption⟩

/-- The validator answers a command after all four checks (R150, R153). -/
theorem validate_eq_some_iff :
    validate f a = some c ↔
      addressAccepted f a = true ∧ (∀ j < 3, complementPair (f.get (2 * j)) (f.get (2 * j + 1)) = true) ∧
        c = Command.ofBytes (f.get 2) (f.get 4) := by
  rw [complementPairs_iff, validate]
  simp only [Frame.get]
  split
  · next haddr => simp [haddr]
  · next haddr =>
    split
    · next hpair0 => simp [hpair0]
    · next hpair0 =>
      split
      · next hpair1 => simp [hpair1]
      · next hpair1 =>
        split
        · next hpair2 => simp [hpair2]
        · next hpair2 => simp [haddr, hpair0, hpair1, hpair2, eq_comm]

theorem validate_of_address_refused (h : addressAccepted f a = false) : validate f a = none := if_pos h

/-- The cause of a rejected frame, with the checks that passed before it and the one that failed (R155). -/
theorem rejectCause_cases (h : validate f a = none) :
    (rejectCause f a = .addr ∧ addressAccepted f a = false) ∨
    (rejectCause f a = .pair0 ∧ addressAccepted f a = true ∧ complementPair (f.get 0) (f.get 1) = false) ∨
    (rejectCause f a = .pair1 ∧ addressAccepted f a = true ∧ complementPair (f.get 0) (f.get 1) = true ∧
      complementPair (f.get 2) (f.get 3) = false) ∨
    (rejectCause f a = .pair2 ∧ addressAccepted f a = true ∧ complementPair (f.get 0) (f.get 1) = true ∧
      complementPair (f.get 2) (f.get 3) = true ∧ complementPair (f.get 4) (f.get 5) = false) := by
  unfold rejectCause
  split
  · next haddr => exact .inl ⟨rfl, haddr⟩
  · next haddr =>
    rw [Bool.not_eq_false] at haddr
    split
    · next hpair0 => exact .inr (.inl ⟨rfl, haddr, hpair0⟩)
    · next hpair0 =>
      rw [Bool.not_eq_false] at hpair0
      split
      · next hpair1 => exact .inr (.inr (.inl ⟨rfl, haddr, hpair0, hpair1⟩))
      · next hpair1 =>
        rw [Bool.not_eq_false] at hpair1
        refine .inr (.inr (.inr ⟨rfl, haddr, hpair0, hpair1, Bool.eq_false_of_not_eq_true fun hpair2 => ?_⟩))
        exact nomatch h.symm.trans
          (validate_eq_some_iff.2 ⟨haddr, complementPairs_iff.2 ⟨hpair0, hpair1, hpair2⟩, rfl⟩)

end Answers

section Encoded

theorem addressAccepted_encodeFrame_iff (a d : Byte) (c : Command) :
    addressAccepted (encodeFrame a c) d = true ↔ a = d ∨ a = 0xFF := addressAccepted_iff

/-- The encoder makes three complement pairs (R152, R171). -/
theorem complementPair_encodeFrame (a : Byte) (c : Command) {j : Nat} (hj : j < 3) :
    complementPair ((encodeFrame a c).get (2 * j)) ((encodeFrame a c).get (2 * j + 1)) = true := by
  rw [encodeFrame_get_odd a c hj]
  exact complementPair_xor_ones _

/-- The command bytes of an encoded frame give back its command (R153, R171). -/
theorem command_ofBytes_encodeFrame (a : Byte) (c : Command) :
    Command.ofBytes ((encodeFrame a c).get 2) ((encodeFrame a c).get 4) = c := command_ofBytes_hi_lo c

end Encoded

end Sys2Proof.Machine
end

section
/-! The obligations of spec/42_validator.md. -/

namespace Sys2Proof.Machine

/-- Settles O26: the four checks byte by byte, and the command as a number. -/
theorem validateAcceptsExactly : Obligations.ValidateAcceptsExactly := by
  intro f a c
  have hcommand : c = Command.ofBytes (f.get 2) (f.get 4) ↔ c.toNat = 256 * (f.get 2).toNat + (f.get 4).toNat := by
    rw [← BitVec.toNat_inj, command_ofBytes_toNat]
  simp only [validate_eq_some_iff, addressAccepted_iff, complementPair_iff, hcommand]

/-- Settles O28: the pairs of an encoded frame hold, so the address alone decides. -/
theorem encodedFrameValidates : Obligations.EncodedFrameValidates := by
  intro a d c
  split
  · next haddr =>
    exact validate_eq_some_iff.2 ⟨(addressAccepted_encodeFrame_iff a d c).2 haddr,
      fun _ hj => complementPair_encodeFrame a c hj, (command_ofBytes_encodeFrame a c).symm⟩
  · next haddr =>
    exact validate_of_address_refused
      (Bool.eq_false_of_not_eq_true fun h => haddr ((addressAccepted_encodeFrame_iff a d c).1 h))

/-- Settles O27: each cause fixes the checks before it, so it excludes the conditions of the other three. -/
theorem rejectCauseIsFirstFailing : Obligations.RejectCauseIsFirstFailing := by
  intro f a h
  simp only [ne_eq, ← not_or, ← addressAccepted_iff, ← complementPair_iff]
  rcases rejectCause_cases h with ⟨hcause, haddr⟩ | ⟨hcause, haddr, hpair0⟩ | ⟨hcause, haddr, hpair0, hpair1⟩ |
    ⟨hcause, haddr, hpair0, hpair1, hpair2⟩
  · simp [hcause, rejectCode, haddr]
  · simp [hcause, rejectCode, haddr, hpair0]
  · simp [hcause, rejectCode, haddr, hpair0, hpair1]
  · simp [hcause, rejectCode, haddr, hpair0, hpair1, hpair2]

end Sys2Proof.Machine
end

section
/-! SUPPORT. How a transmission is left (spec/43_transmit.md R178): no other step ends it. -/

namespace Sys2Proof.Machine

variable {i : Instr} {s t : State}

@[simp] theorem emitInterval_txActive (s : State) (iv : PulseInterval) :
    (emitInterval iv s).tx.txActive = s.tx.txActive := by cases iv <;> rfl

@[simp] theorem txEmit_txActive (s : State) : (txEmit s).tx.txActive = s.tx.txActive := by simp [txEmit]

/-- A transmission is ended by the TXSTEP after its last interval and by RESET alone (R178). -/
theorem exit_of_txActive (h : exec i s = .next t) (hs : s.tx.txActive = true) (ht : t.tx.txActive = false) :
    ((i = .txstep ∧ 98 < s.tx.txIndex.toNat) ∨ i = .reset) ∧ t.cap.capEnabled = true := by
  have hchanged : t.tx ≠ s.tx := fun heq => by simp [heq, hs] at ht
  cases i with
  | edge d e =>
    obtain ⟨-, htx, -⟩ := execEdge_frame h
    exact absurd htx hchanged
  | poll =>
    obtain ⟨-, -, htx, -⟩ := execPoll_frame h
    exact absurd htx hchanged
  | complete =>
    obtain ⟨htx, -⟩ := execComplete_frame h
    exact absurd htx hchanged
  | txreq a c =>
    rcases execTxreq_cases h with ⟨-, rfl⟩ | ⟨-, rfl⟩
    · exact absurd rfl hchanged
    · exact nomatch ht
  | txstep =>
    rcases execTxstep_cases h with ⟨hidle, -⟩ | ⟨-, -, rfl⟩ | ⟨-, hend, rfl⟩
    · exact nomatch hs.symm.trans hidle
    · rw [State.withResult_tx, txEmit_txActive, hs] at ht
      exact nomatch ht
    · exact ⟨.inl ⟨rfl, hend⟩, rfl⟩
  | read v =>
    obtain rfl := execRead_cases h
    exact absurd rfl hchanged
  | reset =>
    obtain rfl := execReset_cases h
    exact ⟨.inr rfl, rfl⟩

end Sys2Proof.Machine
end

section
/-! The obligations of spec/43_transmit.md on single steps. -/

namespace Sys2Proof.Machine

/-- Settles O29: a free foreground starts the transmission under either policy, a busy one is not enabled. -/
theorem txreqStep : Obligations.TxreqStep := by
  intro a c s
  constructor
  · intro hactive hstate
    rw [exec_txreq_of_enabled ((foregroundFree_iff s).2 ⟨hactive, hstate⟩), completed]
    refine congrArg _ (state_eq_of_fields rfl (show txreqRx s.cfg.txRxPolicy s.rx = _ from ?rx) rfl rfl rfl rfl rfl rfl)
    case rx => cases s.cfg.txRxPolicy <;> rfl
  · intro hbusy
    refine exec_of_not_enabled (i := .txreq a c) (Bool.eq_false_of_not_eq_true fun hfree => ?_)
    obtain ⟨hactive, hstate⟩ := (foregroundFree_iff s).1 hfree
    rcases hbusy with hsending | hwaiting
    · simp [hactive] at hsending
    · exact hstate hwaiting

/-- Settles O30: with the carrier off, an interval is emitted and counted. -/
theorem txstepInterval : Obligations.TxstepInterval := by
  intro s hactive hindex hcarrier
  rw [exec_txstep_of_interval hactive hindex, completed]
  refine congrArg _ (state_eq_of_fields (txEmit_cfg s) (txEmit_rx s) (txEmit_mb s) (txEmit_cap s) ?tx
    (txEmit_stimulus s) ?trace rfl)
  case tx => simp [txEmit_tx s hcarrier, BitVec.ofNat_add]
  case trace =>
    rw [State.withResult_trace, txEmit_trace]
    cases pulse s.cfg s.tx.txFrame s.tx.txIndex.toNat <;> rfl

/-- Settles O31: what the last TXSTEP writes, and the exits instruction by instruction. -/
theorem txstepEnd : Obligations.TxstepEnd := by
  refine ⟨fun s hactive hindex => ?_, fun _ _ _ => exit_of_txActive⟩
  rw [exec_txstep_of_end hactive hindex, completed]
  exact congrArg _ (state_eq_of_fields rfl rfl rfl rfl rfl rfl (txFinish_trace s) rfl)

/-- Settles O14: a transmission has the receive path disabled, which drops every edge. -/
theorem noSelfCapture : Obligations.NoSelfCapture := by
  intro d e s hs hactive
  exact exec_edge_of_disabled d e (by simp [hs.pathPaired, hactive])

end Sys2Proof.Machine
end

section
/-! SUPPORT. The input queue as a run (notes/assumptions/1.md): well-formed words are consumed one a step, and the run
ends where their instructions lead. -/

namespace Sys2Proof.Machine

/-- A step on a queue of encoded instructions runs the first of them. -/
theorem step_queued_cons {i : Instr} {s t : State} (is : List Instr) (hi : i.wellFormed s.cfg.tickBits = true)
    (h : exec i s = .next t) : step (queued s (i :: is)) = .next (queued t is) := by
  have hstep : step (queued s (i :: is)) = exec i (queued s is) :=
    stepRunsDecodedInstruction (queued s (i :: is)) (encode i) (is.map encode) i rfl (decode_encode hi)
  rw [hstep]
  exact exec_withStimulus (is.map encode) h

/-- A queue of well-formed instructions is consumed, and ends where they lead. -/
theorem core_run_queued {is : List Instr} {s t : State} (hwf : ∀ i ∈ is, i.wellFormed s.cfg.tickBits = true)
    (h : execAll is s = .next t) : Host.Core.run Sys2Proof.core is.length (queued s is) = .next (queued t []) := by
  induction is generalizing s with
  | nil =>
    cases h
    rfl
  | cons i is ih =>
    obtain ⟨hi, his⟩ := List.forall_mem_cons.1 hwf
    simp only [execAll] at h
    split at h
    · next s' hexec =>
      obtain ⟨hcfg, -⟩ := exec_frame hexec
      have hstep : Sys2Proof.core.step (queued s (i :: is)) = .next (queued s' is) := step_queued_cons is hi hexec
      exact (core_run_succ hstep).trans (ih (by rwa [hcfg]) h)
    · cases h
    · cases h

end Sys2Proof.Machine
end

section
/-! SUPPORT. The steps of a frame's reception (spec/44_capture_dispatch.md R212, spec/43_transmit.md R183): they are
well formed, and at a legal configuration they are those of `rxframe`, with the final edge before COMPLETE or after
it. -/

namespace Sys2Proof.Machine

section WellFormed
variable (c : Config)

/-- The timer's count has `TICK_BITS` bits, saturated or wrapped (R212, R244). -/
theorem elapsedCount_lt (us : Nat) : elapsedCount c us < 2 ^ c.tickBits := by
  have hpos : 0 < 2 ^ c.tickBits := Nat.two_pow_pos _
  unfold elapsedCount
  split
  · assumption
  · split
    · omega
    · exact Nat.mod_lt _ hpos

theorem wellFormed_edgeStep (d : Dir) (us : Nat) : (edgeStep c d us).wellFormed c.tickBits = true := by
  have hle : (BitVec.ofNat 24 (elapsedCount c us)).toNat ≤ elapsedCount c us := Nat.mod_le _ _
  exact decide_eq_true (hle.trans_lt (elapsedCount_lt c us))

/-- Every edge of a waveform has a count of the line's timer. -/
theorem wellFormed_of_mem_edgesFrom {i : Instr} {l : Level} {us : Nat} {train : List PulseInterval}
    (h : i ∈ edgesFrom c l us train) : i.wellFormed c.tickBits = true := by
  induction train generalizing l us with
  | nil =>
    rw [edgesFrom] at h
    split at h
    · exact nomatch h
    · obtain rfl := List.mem_singleton.1 h
      exact wellFormed_edgeStep c _ _
  | cons iv ivs ih =>
    rw [edgesFrom] at h
    split at h
    · exact ih h
    · rcases List.mem_cons.1 h with rfl | hmem
      · exact wellFormed_edgeStep c _ _
      · exact ih hmem

theorem mem_servedByPoll {i : Instr} {edges : List Instr} (h : i ∈ servedByPoll edges) : i ∈ edges ∨ i = .poll := by
  obtain ⟨e, he, hi⟩ := List.mem_flatMap.1 h
  rcases List.mem_pair.1 hi with rfl | rfl
  · exact .inl he
  · exact .inr rfl

/-- A reception takes the edges of the line, POLL and COMPLETE. -/
theorem wellFormed_of_mem_frameReception {i : Instr} {idleUs : Nat} {train : List PulseInterval}
    {finalEdgeFirst : Bool} (h : i ∈ frameReception c idleUs train finalEdgeFirst) :
    i.wellFormed c.tickBits = true := by
  have hcases : i ∈ lineEdges c idleUs train ∨ i = .poll ∨ i = .complete := by
    rcases List.mem_append.1 h with hserved | htail
    · exact (mem_servedByPoll hserved).imp List.mem_of_mem_take .inl
    · have hdrop : i ∈ (lineEdges c idleUs train).drop 99 ∨ i = .complete := by
        cases finalEdgeFirst <;> simpa [or_comm] using htail
      exact hdrop.imp List.mem_of_mem_drop .inr
  rcases hcases with hedge | rfl | rfl
  · exact wellFormed_of_mem_edgesFrom c hedge
  · rfl
  · rfl

end WellFormed

section Steps
variable {c : Config}

theorem servedByPoll_length (edges : List Instr) : (servedByPoll edges).length = 2 * edges.length := by
  simp [servedByPoll, Nat.mul_comm]

theorem pulseTrain_congr {ct : Config} (f : Frame) (htrain : ct.trainUs = c.trainUs)
    (hsilence : ct.silenceUs = c.silenceUs) (hshort : ct.shortUs = c.shortUs) (hlong : ct.longUs = c.longUs) :
    pulseTrain ct f = pulseTrain c f := by
  have hpulse : pulse ct f = pulse c f := by
    funext i
    simp only [pulse, htrain, hsilence, hshort, hlong]
  rw [pulseTrain, pulseTrain, hpulse]

/-- The hundredth edge ends the terminating mark. -/
theorem lineEdges_pulseTrain_drop (h : configLegal c = true) (f : Frame) (idleUs : Nat) :
    (lineEdges c idleUs (pulseTrain c f)).drop 99 = [.edge .rising (ticksOperand c c.shortUs)] := by
  have hlast : intervalEdge c (.mark c.shortUs) = .edge .rising (ticksOperand c c.shortUs) :=
    edgeStep_nominal h .rising .shortMark
  rw [lineEdges_pulseTrain, pulseTrain_eq, List.map_append, ← List.cons_append,
    List.drop_left' (by simp [trainBody_length]), List.map_singleton, hlast]

/-- The steps after the 99 served edges: the final edge, and COMPLETE before or after it (R183). -/
def receptionEnd (c : Config) (finalEdgeFirst : Bool) : List Instr :=
  if finalEdgeFirst then [.edge .rising (ticksOperand c c.shortUs), .complete]
  else [.complete, .edge .rising (ticksOperand c c.shortUs)]

/-- A reception is the `rx` of `rxframe`, part by part, and its end (R88, R183). -/
theorem frameReception_eq (h : configLegal c = true) (f : Frame) (idleUs : Nat) (finalEdgeFirst : Bool) :
    frameReception c idleUs (pulseTrain c f) finalEdgeFirst =
      pseudoRx .falling (BitVec.ofNat 24 (elapsedCount c idleUs)) ++ pseudoRx .rising (ticksOperand c c.trainUs) ++
        pseudoRx .falling (ticksOperand c c.silenceUs) ++ (List.range 48).flatMap (pseudoBit c f) ++
        receptionEnd c finalEdgeFirst := by
  have hserved := List.append_cancel_right (rxframeIsLineModel c idleUs f h)
  rw [frameReception, ← hserved, lineEdges_pulseTrain_drop h]
  cases finalEdgeFirst <;> rfl

theorem frameReception_length (f : Frame) (idleUs : Nat) (finalEdgeFirst : Bool) :
    (frameReception c idleUs (pulseTrain c f) finalEdgeFirst).length = 200 := by
  have hedges : (lineEdges c idleUs (pulseTrain c f)).length = 100 := by simp [lineEdges_pulseTrain]
  cases finalEdgeFirst <;> simp [frameReception, servedByPoll_length, hedges]

end Steps

end Sys2Proof.Machine
end

section
/-! SUPPORT. The bits of a frame appended in the order sent (spec/20_memory.md R52, spec/41_receive.md R127): the
receive fields while they come in, and the frame they spell. -/

namespace Sys2Proof.Machine

/-- The receive fields after the first `n` bits of a frame. -/
def Rx.withBits (r : Rx) (f : Frame) (n : Nat) : Rx := (List.range n).foldl (fun r k => appendBit (frameBit f k) r) r

section Counting
variable {r : Rx} (f : Frame)

theorem withBits_succ (r : Rx) (n : Nat) : r.withBits f (n + 1) = appendBit (frameBit f n) (r.withBits f n) := by
  rw [Rx.withBits, List.range_succ, List.foldl_append]
  rfl

/-- An appended bit keeps the receive state, unless it completes the frame (R127). -/
theorem appendBit_rxState (b : Bool) (r : Rx) :
    (appendBit b r).rxState = r.rxState ∨ (appendBit b r).rxState = .commandReceived := by
  by_cases hlast : r.bitCount.toNat + 1 = 8
  · rw [appendBit_last r b hlast]
    by_cases hsixth : r.byteCount.toNat + 1 = 6
    · exact .inr (if_pos hsixth)
    · exact .inl (if_neg hsixth)
  · rw [appendBit_within r b hlast]
    exact .inl rfl

/-- Up to the 47th bit the frame is not complete (R127, R133). -/
theorem withBits_receiving (hstate : r.rxState = .receivingBits) (hempty : collectedBits r = 0) {n : Nat}
    (hn : n < 48) : (r.withBits f n).rxState = .receivingBits ∧ collectedBits (r.withBits f n) = n := by
  induction n with
  | zero => exact ⟨hstate, hempty⟩
  | succ n ih =>
    obtain ⟨hreceiving, hcollected⟩ := ih (by omega)
    have hheld : 8 * (r.withBits f n).byteCount.toNat + (r.withBits f n).bitCount.toNat = n := hcollected
    rw [withBits_succ, collectedBits_appendBit _ (by omega), hcollected]
    refine ⟨(appendBit_rxState _ _).elim (fun hkept => hkept.trans hreceiving) fun hcomplete => ?_, rfl⟩
    obtain ⟨hbytes, hbits⟩ := appendBit_completes _ (by simp [hreceiving]) hcomplete
    rw [hbytes, hbits] at hheld
    exact absurd hheld (show 8 * 5 + 7 ≠ n by omega)

end Counting

section Bytes
variable {r : Rx} (f : Frame)

/-- Bit `m` of those of byte `j`, in the order sent (R52, R71). -/
theorem frameBit_of_byte (j : Nat) {m : Nat} (hm : m < 8) : frameBit f (8 * j + m) = (f.get j).getLsbD (7 - m) := by
  have hbyte : (8 * j + m) / 8 = j := by omega
  have hplace : (8 * j + m) % 8 = m := by omega
  rw [frameBit, hbyte, hplace]

/-- The eight bits of byte `j` store it (R127). -/
theorem foldl_appendBit_byte (j : Nat) (hbits : r.bitCount = 0) (hcur : r.curByte = 0) :
    ((List.range 8).map (8 * j + ·)).foldl (fun r k => appendBit (frameBit f k) r) r = r.stored (f.get j) := by
  have hdown : (List.range 8).map (7 - ·) = (List.range (7 + 1)).reverse := rfl
  have hstored := foldl_appendBit_holdingAbove r (f.get j) (n := 7) (by decide)
  rw [Rx.holdingAbove_seven r _ hbits hcur, ← hdown, List.foldl_map] at hstored
  rw [List.foldl_map, ← hstored]
  exact List.foldl_ext _ _ _ fun r m hm => by rw [frameBit_of_byte f j (List.mem_range.1 hm)]

/-- Bit by bit or byte by byte, the same is stored; after whole bytes no bit is held (R127). -/
theorem withBits_bytes (hbits : r.bitCount = 0) (hcur : r.curByte = 0) (n : Nat) :
    r.withBits f (8 * n) = (List.range n).foldl (fun r j => r.stored (f.get j)) r ∧
    (r.withBits f (8 * n)).bitCount = 0 ∧ (r.withBits f (8 * n)).curByte = 0 := by
  induction n with
  | zero => exact ⟨rfl, hbits, hcur⟩
  | succ n ih =>
    obtain ⟨hfold, hbits', hcur'⟩ := ih
    have hbyte : r.withBits f (8 * (n + 1)) = (r.withBits f (8 * n)).stored (f.get n) := by
      rw [← foldl_appendBit_byte f n hbits' hcur', Nat.mul_succ, Rx.withBits, List.range_add, List.foldl_append]
      rfl
    rw [hbyte, hfold, List.range_succ, List.foldl_append]
    exact ⟨rfl, rfl, rfl⟩

/-- The receive fields with an empty scratch buffer (R26). -/
def Rx.emptyIn (state : RxState) (count : BitVec 16) : Rx := ⟨state, Frame.zero, 0, 0, 0, count⟩

/-- The 48 bits of a frame make the scratch buffer that frame, and it waits (R127, R133). -/
theorem withBits_frame (count : BitVec 16) :
    (Rx.emptyIn .receivingBits count).withBits f 48 = ⟨.commandReceived, f, 0, 0, 6, count⟩ := by
  obtain ⟨hfold, -⟩ := withBits_bytes f (r := .emptyIn .receivingBits count) rfl rfl 6
  calc (Rx.emptyIn .receivingBits count).withBits f 48
    _ = [0, 1, 2, 3, 4, 5].foldl (fun r j => r.stored (f.get j)) (.emptyIn .receivingBits count) := hfold
    _ = ⟨.commandReceived, f, 0, 0, 6, count⟩ := by simp [Rx.emptyIn, Rx.stored, Frame.set, Frame.get]

end Bytes

end Sys2Proof.Machine
end

section
/-! SUPPORT. What a taken event makes of the receive fields (spec/41_receive.md R123 to R126): the edges of a
jitter-free frame, one rule each. -/

namespace Sys2Proof.Machine

/-- Under configuration `c`, a taken event of direction `d` and count `e` makes the receive fields `r` into `r'`. -/
def RxLeads (c : Config) (d : Dir) (e : Ticks) (r r' : Rx) : Prop :=
  ∀ s : State, s.cfg = c → s.rx = r → (receiveEvent d e s).rx = r'

section Leads
variable {c : Config} {e : Ticks} {r : Rx}

/-- In Reset the Falling end of an idle gap, however long, is an anomaly that leaves the buffer empty (R123, R128). -/
theorem rxLeads_idleGap (h : r.rxState = .reset) :
    RxLeads c .falling e r (.emptyIn .reset (satInc c.resetCountBits r.resetCount)) := by
  rintro s rfl rfl
  rw [receiveEvent_of_reset _ _ h, stepReset]
  rfl

theorem rxLeads_training (h : r.rxState = .reset) (he : classify c .trainingPulse e = true) :
    RxLeads c .rising e r { r with rxState := .trainingReceived } := by
  rintro s rfl rfl
  rw [receiveEvent_of_reset _ _ h, stepReset, if_pos ⟨rfl, he⟩]
  rfl

theorem rxLeads_silence (h : r.rxState = .trainingReceived) (he : classify c .silenceAfterTraining e = true) :
    RxLeads c .falling e r { r with rxState := .receivingBits } := by
  rintro s rfl rfl
  rw [receiveEvent_of_training _ _ h, stepTraining, if_pos ⟨rfl, he⟩]
  rfl

theorem rxLeads_mark (h : r.rxState = .receivingBits) (he : classify c .shortMark e = true) :
    RxLeads c .rising e r r := by
  rintro s rfl rfl
  rw [receiveEvent_rising_of_bits _ h, stepMark, if_pos he]

theorem rxLeads_longSpace (h : r.rxState = .receivingBits) (he : classify c .longSpace e = true) :
    RxLeads c .falling e r (appendBit true r) := by
  rintro s rfl rfl
  rw [receiveEvent_falling_of_bits _ h, stepSpace, if_pos he]
  rfl

theorem rxLeads_shortSpace (h : r.rxState = .receivingBits) (hlong : classify c .longSpace e = false)
    (he : classify c .shortSpace e = true) : RxLeads c .falling e r (appendBit false r) := by
  rintro s rfl rfl
  rw [receiveEvent_falling_of_bits _ h, stepSpace, hlong, if_neg Bool.false_ne_true, if_pos he]
  rfl

/-- Where the bit spaces are told apart, the space of a bit appends that bit (R107, R126). -/
theorem rxLeads_bitSpace (hlegal : configLegal c = true) (hapart : toTicks c c.shortUs < lo c c.longUs)
    (h : r.rxState = .receivingBits) (b : Bool) :
    RxLeads c .falling (ticksOperand c (if b then c.longUs else c.shortUs)) r (appendBit b r) := by
  obtain ⟨hclass, hrefused⟩ := nominalDurationsClassify c hlegal
  cases b with
  | false => exact rxLeads_shortSpace h (hrefused hapart) (hclass .shortSpace)
  | true => exact rxLeads_longSpace h (hclass .longSpace)

end Leads

end Sys2Proof.Machine
end

section
/-! SUPPORT. A reception as a chain of places (spec/43_transmit.md R183): where a listening block stands, and what
brings it from one place to the next. -/

namespace Sys2Proof.Machine

/-- A place in a reception: the edge watched for, the receive fields, and the commands handed over so far. -/
structure Place where
  /-- The edge the capture watches for (R31). -/
  watched : Dir
  /-- The receive fields. -/
  rx : Rx
  /-- The commands handed to the dispatcher since the reception began (R132). -/
  heard : List Command

/-- A reception that began in `s` has come to place `p` in `t`: the receive path is open and no transmission in
progress. -/
structure ListensAt (s : State) (p : Place) (t : State) : Prop where
  /-- R10. -/
  cfg : t.cfg = s.cfg
  /-- The receive fields of the place. -/
  rx : t.rx = p.rx
  /-- R31, R32. -/
  cap : t.cap = ⟨p.watched, true⟩
  /-- R34. -/
  idle : t.tx.txActive = false
  /-- R132. -/
  heard : ∃ es, t.trace = s.trace ++ es ∧ decodedCommands es = p.heard

/-- The instructions `is` bring a reception that began in `s` from one place to another. -/
def Brings (s : State) (is : List Instr) (p q : Place) : Prop :=
  ∀ t, ListensAt s p t → ∃ u, execAll is t = .next u ∧ ListensAt s q u

section Chain
variable {s : State} {p q o : Place} {is js : List Instr}

theorem Brings.refl : Brings s [] p p := fun t ht => ⟨t, rfl, ht⟩

/-- One part of a reception after the other. -/
theorem Brings.append (h : Brings s is p q) (h' : Brings s js q o) : Brings s (is ++ js) p o := by
  intro t ht
  obtain ⟨u, his, hu⟩ := h t ht
  obtain ⟨v, hjs, hv⟩ := h' u hu
  exact ⟨v, (execAll_append js his).trans hjs, hv⟩

theorem Brings.of_exec {i : Instr} (h : ∀ t, ListensAt s p t → ∃ u, exec i t = .next u ∧ ListensAt s q u) :
    Brings s [i] p q := by
  intro t ht
  obtain ⟨u, hi, hu⟩ := h t ht
  exact ⟨u, execAll_cons [] hi, hu⟩

end Chain

section Steps
variable {s t u : State} {p : Place}

/-- Every step but COMPLETE leaves what was heard (R132). -/
theorem ListensAt.heard_of_exec {i : Instr} (ht : ListensAt s p t) (h : exec i t = .next u) (hi : i ≠ .complete) :
    ∃ es, u.trace = s.trace ++ es ∧ decodedCommands es = p.heard := by
  obtain ⟨es, htrace, hes⟩ := ht.heard
  obtain ⟨-, -, fs, hfs⟩ := exec_frame h
  have hsilent : decodedCommands fs = [] := newEvents_eq hfs ▸ decodedCommands_of_ne_complete hi h
  exact ⟨es ++ fs, by rw [hfs, htrace, List.append_assoc],
    by rw [decodedCommands_append, hes, hsilent, List.append_nil]⟩

/-- The watched edge is captured, and the other one is watched for (R203). -/
theorem ListensAt.capture {d : Dir} {r : Rx} {heard : List Command} (ht : ListensAt s ⟨d, r, heard⟩ t)
    (e : Ticks) :
    ∃ u, exec (.edge d e) t = .next u ∧ u.mb = ⟨true, e, d⟩ ∧ ListensAt s ⟨d.flip, r, heard⟩ u := by
  have hexec : exec (.edge d e) t = .next ((captureEdge d e t).withResult .completed) :=
    exec_edge_of_watched e (by rw [ht.cap]) (by rw [ht.cap])
  refine ⟨_, hexec, captureEdge_mb d e t, ?_, ?_, ?_, ?_, ht.heard_of_exec hexec nofun⟩
  · exact (captureEdge_cfg d e t).trans ht.cfg
  · exact (captureEdge_rx d e t).trans ht.rx
  · rw [State.withResult_cap, captureEdge_cap, ht.cap]
  · exact (congrArg Tx.txActive (captureEdge_tx d e t)).trans ht.idle

/-- The pending event is taken (R120). -/
theorem ListensAt.poll {d d' : Dir} {e : Ticks} {r r' : Rx} {heard : List Command}
    (ht : ListensAt s ⟨d', r, heard⟩ t) (hmb : t.mb = ⟨true, e, d⟩) (hr : r.rxState ≠ .commandReceived)
    (hleads : RxLeads s.cfg d e r r') : ∃ u, exec .poll t = .next u ∧ ListensAt s ⟨d', r', heard⟩ u := by
  have hexec : exec .poll t = .next ((receiveEvent d e (take t)).withResult .completed) := by
    have hpoll := exec_poll_of_free ht.idle (by rwa [ht.rx]) (by rw [hmb])
    rwa [hmb] at hpoll
  obtain ⟨hcfg, -, hcap, htx, -⟩ := receiveEvent_frame d e (take t)
  refine ⟨_, hexec, ?_, ?_, ?_, ?_, ht.heard_of_exec hexec nofun⟩
  · exact hcfg.trans ht.cfg
  · exact hleads (take t) ht.cfg ht.rx
  · exact hcap.trans ht.cap
  · exact (congrArg Tx.txActive htx).trans ht.idle

end Steps

section Parts
variable {s : State} {d : Dir} {r r' : Rx} {heard : List Command}

/-- The watched edge. -/
theorem brings_edge_of_watched (e : Ticks) : Brings s [.edge d e] ⟨d, r, heard⟩ ⟨d.flip, r, heard⟩ :=
  .of_exec fun t ht => by
    obtain ⟨u, hexec, -, hu⟩ := ht.capture e
    exact ⟨u, hexec, hu⟩

/-- The other edge is dropped (R202). -/
theorem brings_edge_of_unwatched (e : Ticks) : Brings s [.edge d.flip e] ⟨d, r, heard⟩ ⟨d, r, heard⟩ :=
  .of_exec fun t ht => by
    have hexec : exec (.edge d.flip e) t = .next ((t.emit (.edgeDropped .polarity)).withResult .completed) :=
      exec_edge_of_other_polarity e (by rw [ht.cap]) (by rw [ht.cap]; exact dir_flip_ne d)
    exact ⟨_, hexec, ht.cfg, ht.rx, ht.cap, ht.idle, ht.heard_of_exec hexec nofun⟩

/-- The watched edge, served by a POLL (R88, R183). -/
theorem brings_rx {e : Ticks} (hr : r.rxState ≠ .commandReceived) (hleads : RxLeads s.cfg d e r r') :
    Brings s (pseudoRx d e) ⟨d, r, heard⟩ ⟨d.flip, r', heard⟩ := by
  intro t ht
  obtain ⟨u, hedge, hmb, hu⟩ := ht.capture e
  obtain ⟨v, hpoll, hv⟩ := hu.poll hmb hr hleads
  exact ⟨v, (execAll_cons [.poll] hedge).trans (execAll_cons [] hpoll), hv⟩

/-- COMPLETE hands an accepted frame's command over and starts anew (R130, R132). -/
theorem brings_complete {c : Command} (hr : r.rxState = .commandReceived)
    (hframe : validate r.frame s.cfg.devAddr = some c) :
    Brings s [.complete] ⟨d, r, heard⟩ ⟨.falling, Rx.reset, heard ++ [c]⟩ :=
  .of_exec fun t ht => by
    have hwaiting : frameWaiting t = true := (frameWaiting_iff t).2 ⟨ht.idle, by rw [ht.rx, hr]⟩
    have hvalid : validate t.rx.frame t.cfg.devAddr = some c := by rw [ht.rx, ht.cfg, hframe]
    obtain ⟨es, htrace, hes⟩ := ht.heard
    refine ⟨_, exec_complete_of_accepted hwaiting hvalid, ht.cfg, rfl, ?_, ht.idle,
      es ++ [.cmdDecoded c, .timerReset], ?_, ?_⟩
    · simp [frameDone, ht.cap]
    · simp [frameDone, htrace]
    · rw [decodedCommands_append, hes]
      rfl

end Parts

end Sys2Proof.Machine
end

section
/-! SUPPORT. The reception of a jitter-free frame, part by part (spec/43_transmit.md R183): the gap, the training pulse
and the silence, the 48 bits, and the end in both orders. -/

namespace Sys2Proof.Machine

variable {s : State} {heard : List Command}

/-- The idle gap, the training pulse and the silence lead to the bits (R123, R124, R183). -/
theorem brings_preamble {r : Rx} (hlegal : configLegal s.cfg = true) (hr : r.rxState = .reset) (gap : Ticks) :
    Brings s
      (pseudoRx .falling gap ++ pseudoRx .rising (ticksOperand s.cfg s.cfg.trainUs) ++
        pseudoRx .falling (ticksOperand s.cfg s.cfg.silenceUs))
      ⟨.falling, r, heard⟩
      ⟨.rising, .emptyIn .receivingBits (satInc s.cfg.resetCountBits r.resetCount), heard⟩ := by
  obtain ⟨hclass, -⟩ := nominalDurationsClassify s.cfg hlegal
  have hgap := rxLeads_idleGap (c := s.cfg) (e := gap) hr
  generalize satInc s.cfg.resetCountBits r.resetCount = count at hgap ⊢
  have htrain : RxLeads s.cfg .rising _ (.emptyIn .reset count) (.emptyIn .trainingReceived count) :=
    rxLeads_training rfl (hclass .trainingPulse)
  have hsilence : RxLeads s.cfg .falling _ (.emptyIn .trainingReceived count) (.emptyIn .receivingBits count) :=
    rxLeads_silence rfl (hclass .silenceAfterTraining)
  exact ((brings_rx (by simp [hr]) hgap).append (brings_rx nofun htrain)).append (brings_rx nofun hsilence)

section Bits
variable {r : Rx} (f : Frame)

/-- The mark and the space of a bit append it (R125, R126). -/
theorem brings_bit (hlegal : configLegal s.cfg = true) (hapart : toTicks s.cfg s.cfg.shortUs < lo s.cfg s.cfg.longUs)
    (hr : r.rxState = .receivingBits) (k : Nat) :
    Brings s (pseudoBit s.cfg f k) ⟨.rising, r, heard⟩ ⟨.rising, appendBit (frameBit f k) r, heard⟩ := by
  obtain ⟨hclass, -⟩ := nominalDurationsClassify s.cfg hlegal
  have hmark := brings_rx (heard := heard) (by simp [hr]) (rxLeads_mark hr (hclass .shortMark))
  have hspace := brings_rx (heard := heard) (by simp [hr]) (rxLeads_bitSpace hlegal hapart hr (frameBit f k))
  exact hmark.append hspace

/-- The bits of a frame come in one by one, up to the last (R127, R133). -/
theorem brings_bits (hlegal : configLegal s.cfg = true) (hapart : toTicks s.cfg s.cfg.shortUs < lo s.cfg s.cfg.longUs)
    (hr : r.rxState = .receivingBits) (hempty : collectedBits r = 0) {n : Nat} (hn : n ≤ 48) :
    Brings s ((List.range n).flatMap (pseudoBit s.cfg f)) ⟨.rising, r, heard⟩ ⟨.rising, r.withBits f n, heard⟩ := by
  induction n with
  | zero => exact .refl
  | succ n ih =>
    obtain ⟨hreceiving, -⟩ := withBits_receiving f hr hempty (n := n) (by omega)
    rw [List.range_succ, List.flatMap_append, List.flatMap_singleton, withBits_succ]
    exact (ih (by omega)).append (brings_bit f hlegal hapart hreceiving n)

end Bits

/-- The final edge before COMPLETE is captured and discarded; after it, it is not watched for (R183, R202, R207). -/
theorem brings_receptionEnd {r : Rx} {c : Command} (hr : r.rxState = .commandReceived)
    (hframe : validate r.frame s.cfg.devAddr = some c) (finalEdgeFirst : Bool) :
    Brings s (receptionEnd s.cfg finalEdgeFirst) ⟨.rising, r, heard⟩ ⟨.falling, Rx.reset, heard ++ [c]⟩ := by
  cases finalEdgeFirst with
  | false => exact (brings_complete hr hframe).append (brings_edge_of_unwatched (d := .falling) _)
  | true => exact (brings_edge_of_watched _).append (brings_complete hr hframe)

/-- A block in Reset that tells the bit spaces apart receives a frame it accepts, and is in Reset again (R183). -/
theorem brings_frameReception {r : Rx} {f : Frame} {c : Command} (hlegal : configLegal s.cfg = true)
    (hapart : toTicks s.cfg s.cfg.shortUs < lo s.cfg s.cfg.longUs) (hr : r.rxState = .reset)
    (hframe : validate f s.cfg.devAddr = some c) (idleUs : Nat) (finalEdgeFirst : Bool) :
    Brings s (frameReception s.cfg idleUs (pulseTrain s.cfg f) finalEdgeFirst)
      ⟨.falling, r, heard⟩ ⟨.falling, Rx.reset, heard ++ [c]⟩ := by
  rw [frameReception_eq hlegal]
  have hbits := brings_bits (s := s) (heard := heard) f hlegal hapart
    (r := .emptyIn .receivingBits (satInc s.cfg.resetCountBits r.resetCount)) rfl rfl (le_refl 48)
  rw [withBits_frame] at hbits
  exact ((brings_preamble hlegal hr _).append hbits).append (brings_receptionEnd rfl hframe finalEdgeFirst)

end Sys2Proof.Machine
end

section
/-! The obligation of spec/43_transmit.md on the round trip. -/

namespace Sys2Proof.Machine

/-- Settles O57: the reception's steps lead to the command heard once, and the queue delivers them. -/
theorem roundTrip : Obligations.RoundTrip := by
  intro ct s a c idleUs finalEdgeFirst hs hstate _ henabled hpolarity hidle haddr hapart htrain hsilence hshort hlong
  have hframe : validate (encodeFrame a c) s.cfg.devAddr = some c :=
    (encodedFrameValidates a s.cfg.devAddr c).trans (if_pos haddr)
  have hstart : ListensAt s ⟨.falling, s.rx, []⟩ s :=
    ⟨rfl, rfl, by rw [← hpolarity, ← henabled], hidle, [], (List.append_nil _).symm, rfl⟩
  obtain ⟨t, hexec, ht⟩ :=
    brings_frameReception hs.cfgLegal hapart hstate hframe idleUs finalEdgeFirst s hstart
  obtain ⟨es, htrace, hes⟩ := ht.heard
  have hrun := core_run_queued (fun _ => wellFormed_of_mem_frameReception s.cfg) hexec
  rw [frameReception_length] at hrun
  rw [pulseTrain_congr _ htrain hsilence hshort hlong]
  refine ⟨_, hrun, ?_, congrArg Rx.rxState ht.rx, congrArg Rx.resetCount ht.rx, rfl⟩
  exact (congrArg decodedCommands (newEvents_eq htrace)).trans hes

end Sys2Proof.Machine
end

section
/-! SUPPORT. Which instructions are enabled, and how an enabled one ends (spec/44_capture_dispatch.md R208). -/

namespace Sys2Proof.Machine

variable {s t : State}

/-- The foreground is busy with a transmission or with a waiting frame (R208). -/
theorem foregroundFree_eq_false_iff (s : State) :
    foregroundFree s = false ↔ s.tx.txActive = true ∨ s.rx.rxState = .commandReceived := by
  rw [← Bool.not_eq_true, foregroundFree_iff, not_and_or, Bool.not_eq_false, not_not]

/-- No frame waits, or a transmission is in progress (R208). -/
theorem frameWaiting_eq_false_iff (s : State) :
    frameWaiting s = false ↔ s.tx.txActive = true ∨ s.rx.rxState ≠ .commandReceived := by
  rw [← Bool.not_eq_true, frameWaiting_iff, not_and_or, Bool.not_eq_false]

/-- An enabled instruction other than READ takes effect (R16, R208). -/
theorem result_of_enabled {i : Instr} (hi : ∀ v, i ≠ .read v) (henabled : enabled i s = true)
    (h : exec i s = .next t) : t.result = .completed := by
  cases i with
  | edge d e => rcases execEdge_cases h with ⟨-, rfl⟩ | ⟨-, -, rfl⟩ | ⟨-, -, rfl⟩ <;> rfl
  | poll =>
    rcases execPoll_cases h with ⟨hnot, -⟩ | ⟨-, -, rfl⟩ | ⟨-, -, rfl⟩
    · exact nomatch henabled.symm.trans hnot
    · rfl
    · rfl
  | complete =>
    rcases execComplete_cases h with ⟨hnot, -⟩ | ⟨-, rfl⟩
    · exact nomatch henabled.symm.trans hnot
    · rfl
  | txreq a c =>
    rcases execTxreq_cases h with ⟨hnot, -⟩ | ⟨-, rfl⟩
    · exact nomatch henabled.symm.trans hnot
    · rfl
  | txstep =>
    rcases execTxstep_cases h with ⟨hnot, -⟩ | ⟨-, -, rfl⟩ | ⟨-, -, rfl⟩
    · exact nomatch henabled.symm.trans hnot
    · rfl
    · rfl
  | read v => exact absurd rfl (hi v)
  | reset =>
    obtain rfl := execReset_cases h
    rfl

/-- POLL answers whether it is enabled or not, and whether an event is pending or not (R120, R121). -/
theorem exec_poll_answers (s : State) : ∃ t, exec .poll s = .next t := by
  cases henabled : enabled .poll s with
  | false => exact ⟨_, exec_of_not_enabled henabled⟩
  | true =>
    cases hpending : s.mb.mbPending with
    | false => exact ⟨_, exec_poll_of_idle henabled hpending⟩
    | true => exact ⟨_, exec_poll_of_pending henabled hpending⟩

end Sys2Proof.Machine
end

section
/-! SUPPORT. Which steps reset the timer (spec/44_capture_dispatch.md R207, R244), one instruction at a time. -/

namespace Sys2Proof.Machine

variable {s t : State}

/-- How a step ended is no event. -/
@[simp] theorem newEvents_withResult (s t : State) (r : Result) : newEvents s (t.withResult r) = newEvents s t := rfl

/-- A step resets the timer when `TimerReset` is among the events it appends. -/
theorem timerReset_mem_newEvents_iff {es : List Event} (h : t.trace = s.trace ++ es) :
    Event.timerReset ∈ newEvents s t ↔ Event.timerReset ∈ es := by
  rw [newEvents_eq h]

/-- A step without events does not reset the timer. -/
theorem timerReset_notMem_of_trace_eq (h : t.trace = s.trace) : Event.timerReset ∉ newEvents s t := by
  rw [timerReset_mem_newEvents_iff (h.trans (List.append_nil _).symm)]
  exact List.not_mem_nil

/-- EDGE resets the timer when the edge is captured (R201 to R203). -/
theorem timerReset_mem_edge_iff {d : Dir} {e : Ticks} (h : exec (.edge d e) s = .next t) :
    Event.timerReset ∈ newEvents s t ↔ s.cap.capEnabled = true ∧ d = s.cap.capPolarity := by
  rcases execEdge_cases h with ⟨hdisabled, rfl⟩ | ⟨-, hother, rfl⟩ | ⟨henabled, hwatched, rfl⟩
  · simp [timerReset_mem_newEvents_iff (State.emit_trace s (.edgeDropped .disabled)), hdisabled]
  · simp [timerReset_mem_newEvents_iff (State.emit_trace s (.edgeDropped .polarity)), hother]
  · exact iff_of_true ((timerReset_mem_newEvents_iff (captureEdge_trace d e s)).2 (by simp)) ⟨henabled, hwatched⟩

/-- POLL does not reset the timer (R207). -/
theorem timerReset_notMem_poll (h : exec .poll s = .next t) : Event.timerReset ∉ newEvents s t := by
  obtain ⟨-, -, -, es, htrace, hes⟩ := execPoll_frame h
  rwa [timerReset_mem_newEvents_iff htrace]

/-- COMPLETE re-arms, and so resets the timer, when a frame waits (R130, R207). -/
theorem timerReset_mem_complete_iff (h : exec .complete s = .next t) :
    Event.timerReset ∈ newEvents s t ↔ s.tx.txActive = false ∧ s.rx.rxState = .commandReceived := by
  rw [← frameWaiting_iff]
  rcases execComplete_cases h with ⟨hnot, rfl⟩ | ⟨hwaiting, rfl⟩
  · exact iff_of_false (timerReset_notMem_of_trace_eq rfl) (Bool.eq_false_iff.1 hnot)
  · obtain ⟨ev, hev⟩ := dispatchFrame_trace s
    have htrace : (rearm (discardFrame (dispatchFrame s))).trace = s.trace ++ [ev, .timerReset] := by simp [hev]
    exact iff_of_true ((timerReset_mem_newEvents_iff htrace).2 (by simp)) hwaiting

/-- TXREQ emits no event (R170). -/
theorem timerReset_notMem_txreq {a : Byte} {c : Command} (h : exec (.txreq a c) s = .next t) :
    Event.timerReset ∉ newEvents s t := by
  rcases execTxreq_cases h with ⟨-, rfl⟩ | ⟨-, rfl⟩ <;> exact timerReset_notMem_of_trace_eq rfl

theorem intervalEvent_ne_timerReset (iv : PulseInterval) : intervalEvent iv ≠ .timerReset := by
  cases iv <;> nofun

/-- TXSTEP re-arms, and so resets the timer, after the last interval (R174, R178, R207). -/
theorem timerReset_mem_txstep_iff (h : exec .txstep s = .next t) :
    Event.timerReset ∈ newEvents s t ↔ s.tx.txActive = true ∧ 98 < s.tx.txIndex.toNat := by
  rcases execTxstep_cases h with ⟨hidle, rfl⟩ | ⟨-, hinterval, rfl⟩ | ⟨hactive, hend, rfl⟩
  · exact iff_of_false (timerReset_notMem_of_trace_eq rfl) (by simp [hidle])
  · simp [timerReset_mem_newEvents_iff (txEmit_trace s), (intervalEvent_ne_timerReset _).symm, hinterval]
  · simp [timerReset_mem_newEvents_iff (txFinish_trace s), hactive, hend]

end Sys2Proof.Machine
end

section
/-! SUPPORT. The timed line (spec/44_capture_dispatch.md R212): how it goes on after each action, and that on a line
the capture is in step with, every interval brings the edge the edge list names. -/

namespace Sys2Proof.Machine

section Actions
variable {s t : State}

/-- A step that resets the timer starts the line's time again (R244). -/
theorem observeTimer_of_reset (l : Line) (h : Event.timerReset ∈ newEvents s t) :
    observeTimer l s t = { l with sinceReset := 0 } := if_pos h

/-- Any other step takes no time (entry 15). -/
theorem observeTimer_of_no_reset (l : Line) (h : Event.timerReset ∉ newEvents s t) : observeTimer l s t = l :=
  if_neg h

/-- Time passes, and the line keeps its level. -/
theorem runLine_wait (us : Nat) (as : List LineAction) (l : Line) (s : State) :
    runLine (.wait us :: as) l s = runLine as { l with sinceReset := l.sinceReset + us } s := rfl

/-- A step is taken beside the line. -/
theorem runLine_serve {i : Instr} (as : List LineAction) (l : Line) (h : exec i s = .next t) :
    runLine (.serve i :: as) l s = runLine as (observeTimer l s t) t := by
  simp [runLine, lineAct, stepBeside, h]

/-- The line changes its level, and the block takes the edge. -/
theorem runLine_toggle (as : List LineAction) (l : Line)
    (h : exec (edgeStep s.cfg (nextEdgeDir l.level) l.sinceReset) s = .next t) :
    runLine (.toggle :: as) l s = runLine as (observeTimer { l with level := otherLevel l.level } s t) t := by
  simp [runLine, lineAct, stepBeside, h]

end Actions

section Levels

@[simp] theorem nextEdgeDir_otherLevel (l : Level) : nextEdgeDir (otherLevel l) = (nextEdgeDir l).flip := by
  cases l <;> rfl

/-- There are two levels. -/
theorem otherLevel_eq_of_ne {l l' : Level} (h : l ≠ l') : otherLevel l = l' := by
  cases l <;> cases l' <;> trivial

/-- A line that keeps its level asks for no action. -/
@[simp] theorem levelActions_self (l : Level) : levelActions l l = [] := if_pos rfl

/-- A line that changes its level brings an edge, which a POLL serves. -/
theorem levelActions_of_ne {l l' : Level} (h : l ≠ l') : levelActions l l' = [.toggle, .serve .poll] := if_neg h

end Levels

/-- The capture is enabled and watches for the next edge of a line at level `l` (R212, R279). -/
def InStep (l : Level) (s : State) : Prop := s.cap = ⟨nextEdgeDir l, true⟩

section Waveforms
variable {s : State} {l : Level}

/-- On a line in step a change of level is captured and served, from the edge list as from the timed line; the timer
starts again with it, and the capture is in step with the new level (R203, R212). -/
theorem InStep.levelChange (h : InStep l s) (us : Nat) :
    ∃ t, t.cfg = s.cfg ∧ InStep (otherLevel l) t ∧
      (∀ es, execAll (servedByPoll (edgeStep s.cfg (nextEdgeDir l) us :: es)) s = execAll (servedByPoll es) t) ∧
      ∀ as, runLine (.toggle :: .serve .poll :: as) ⟨l, us⟩ s = runLine as ⟨otherLevel l, 0⟩ t := by
  obtain ⟨u, hedge, hucfg, hustep⟩ : ∃ u,
      exec (edgeStep s.cfg (nextEdgeDir l) us) s = .next u ∧ u.cfg = s.cfg ∧ InStep (otherLevel l) u := by
    refine ⟨_, exec_edge_of_watched (d := nextEdgeDir l) _ (by rw [h]) (by rw [h]), ?_, ?_⟩
    · rw [State.withResult_cfg, captureEdge_cfg]
    · rw [InStep, State.withResult_cap, captureEdge_cap, h, nextEdgeDir_otherLevel]
  have hreset : Event.timerReset ∈ newEvents s u := (timerReset_mem_edge_iff hedge).2 (by rw [h]; trivial)
  obtain ⟨t, hpoll⟩ := exec_poll_answers u
  obtain ⟨htcfg, htcap, -⟩ := execPoll_frame hpoll
  refine ⟨t, htcfg.trans hucfg, htcap.trans hustep, fun es => ?_, fun as => ?_⟩
  · exact (execAll_cons _ hedge).trans (execAll_cons _ hpoll)
  · rw [runLine_toggle _ ⟨l, us⟩ hedge, runLine_serve _ _ hpoll, observeTimer_of_reset _ hreset,
      observeTimer_of_no_reset _ (timerReset_notMem_poll hpoll)]

/-- Any intervals on a line in step: the timed line and the edge list lead to the same state, and the line ends high
(R212). -/
theorem InStep.runLine_intervals (h : InStep l s) (us : Nat) (train : List PulseInterval) :
    ∃ t since, execAll (servedByPoll (edgesFrom s.cfg l us train)) s = .next t ∧
      runLine (intervalsActions l train) ⟨l, us⟩ s = .next (⟨.high, since⟩, t) := by
  induction train generalizing l us s with
  | nil =>
    cases l with
    | high => exact ⟨s, us, rfl, rfl⟩
    | low =>
      obtain ⟨t, -, -, hexec, hrun⟩ := h.levelChange us
      exact ⟨t, 0, hexec [], hrun []⟩
  | cons iv ivs ih =>
    by_cases hlevel : l = intervalLevel iv
    · subst hlevel
      obtain ⟨t, since, hexec, hrun⟩ := ih h (us + intervalUs iv)
      refine ⟨t, since, ?_, ?_⟩
      · rwa [edgesFrom, if_pos rfl]
      · rwa [intervalsActions, levelActions_self, List.nil_append, runLine_wait]
    · obtain ⟨u, hcfg, hustep, hedge, hline⟩ := h.levelChange us
      rw [otherLevel_eq_of_ne hlevel] at hustep hline
      obtain ⟨t, since, hexec, hrun⟩ := ih hustep (intervalUs iv)
      refine ⟨t, since, ?_, ?_⟩
      · rwa [edgesFrom, if_neg hlevel, hedge, ← hcfg]
      · rw [intervalsActions, levelActions_of_ne hlevel]
        refine (hline (.wait (intervalUs iv) :: intervalsActions (intervalLevel iv) ivs)).trans ?_
        rwa [runLine_wait, Nat.zero_add]

end Waveforms

section Merging
variable (c : Config)

/-- Two intervals at one level are one interval of their time together: there is no edge between them (R212). -/
theorem edgesFrom_merge (iv iv' both : PulseInterval) (hsame : intervalLevel iv' = intervalLevel iv)
    (hlevel : intervalLevel both = intervalLevel iv) (hus : intervalUs both = intervalUs iv + intervalUs iv')
    (after : List PulseInterval) (l : Level) (us : Nat) :
    edgesFrom c l us (iv :: iv' :: after) = edgesFrom c l us (both :: after) := by
  by_cases h : l = intervalLevel iv
  · simp [edgesFrom, hsame, hlevel, hus, h, Nat.add_assoc]
  · simp [edgesFrom, hsame, hlevel, hus, h]

/-- The edges of a waveform depend on its end only through the edges of that end (R212). -/
theorem lineEdges_append_congr {x y : List PulseInterval} (h : ∀ l us, edgesFrom c l us x = edgesFrom c l us y)
    (idleUs : Nat) (before : List PulseInterval) :
    lineEdges c idleUs (before ++ x) = lineEdges c idleUs (before ++ y) :=
  edgesFrom_append_congr h before .high idleUs

/-- A last space brings no edge: the line returns to idle, which is the space's level (R33, R212). -/
theorem edgesFrom_last_space (us' : Nat) (l : Level) (us : Nat) :
    edgesFrom c l us [.space us'] = edgesFrom c l us [] := by
  cases l <;> rfl

end Merging

end Sys2Proof.Machine
end

section
/-! SUPPORT. The timer's count past its largest value (spec/44_capture_dispatch.md R212, R244). -/

namespace Sys2Proof.Machine

variable {c : Config} {us : Nat}

theorem elapsedCount_of_saturate (h : 2 ^ c.tickBits ≤ toTicks c us) (hover : c.timerOverflow = .saturate) :
    elapsedCount c us = 2 ^ c.tickBits - 1 := by
  simp [elapsedCount, h.not_gt, hover]

theorem elapsedCount_of_wrap (h : 2 ^ c.tickBits ≤ toTicks c us) (hover : c.timerOverflow = .wrap) :
    elapsedCount c us = toTicks c us % 2 ^ c.tickBits := by
  simp [elapsedCount, h.not_gt, hover]

end Sys2Proof.Machine
end

section
/-! The obligations of spec/44_capture_dispatch.md. -/

namespace Sys2Proof.Machine

/-- Settles O11: outside its condition an instruction is not enabled, and inside it takes effect. -/
theorem enablingTable : Obligations.EnablingTable := by
  intro s
  refine ⟨fun hbusy => ?busy, fun hnone => ?noFrame, fun hidle => ?idle, fun hactive hstate => ?free,
    fun hactive hstate t => ?waiting, fun hactive t => ?sending, fun d e t => ?edge,
    fun t => ?reset, fun v t h => ?read⟩
  case busy =>
    have hnot : foregroundFree s = false := (foregroundFree_eq_false_iff s).2 hbusy
    exact ⟨exec_of_not_enabled (i := .poll) hnot, fun a c => exec_of_not_enabled (i := .txreq a c) hnot⟩
  case noFrame => exact exec_of_not_enabled (i := .complete) ((frameWaiting_eq_false_iff s).2 hnone)
  case idle => exact exec_of_not_enabled (i := .txstep) hidle
  case free =>
    have hfree : foregroundFree s = true := (foregroundFree_iff s).2 ⟨hactive, hstate⟩
    exact ⟨fun t => result_of_enabled (i := .poll) nofun hfree,
      fun a c t => result_of_enabled (i := .txreq a c) nofun hfree⟩
  case waiting => exact result_of_enabled (i := .complete) nofun ((frameWaiting_iff s).2 ⟨hactive, hstate⟩)
  case sending => exact result_of_enabled (i := .txstep) nofun hactive
  case edge => exact result_of_enabled (i := .edge d e) nofun rfl
  case reset => exact result_of_enabled (i := .reset) nofun rfl
  case read =>
    obtain rfl := execRead_cases h
    exact ⟨_, rfl⟩

/-- Settles O12, by the tests of R200 in their order. -/
theorem edgeStep_drops_or_captures : Obligations.EdgeStep := by
  intro d e s
  refine ⟨exec_edge_of_disabled d e, exec_edge_of_other_polarity e, fun henabled hwatched => ?_⟩
  rw [exec_edge_of_watched e henabled hwatched, completed]
  refine congrArg _ (state_eq_of_fields (captureEdge_cfg d e s) (captureEdge_rx d e s) rfl ?cap
    (captureEdge_tx d e s) (captureEdge_stimulus d e s) ?trace rfl)
  case cap => rw [State.withResult_cap, captureEdge_cap, hwatched]
  case trace =>
    rw [State.withResult_trace, captureEdge_trace]
    cases s.mb.mbPending <;> rfl

/-- Settles O13: the first edge is of the other polarity, the second is the watched one. -/
theorem outOfStepLosesOneEdge : Obligations.OutOfStepLosesOneEdge := by
  intro d e e' s henabled hpolarity
  have hother : d ≠ s.cap.capPolarity := hpolarity ▸ (dir_flip_ne d).symm
  have hdropped := exec_edge_of_other_polarity e henabled hother
  have hcaptured := exec_edge_of_watched (s := (s.emit (.edgeDropped .polarity)).withResult .completed) e'
    henabled hpolarity.symm
  refine ⟨_, _, execAll_cons [] hdropped, rfl, rfl,
    (execAll_cons _ hdropped).trans (execAll_cons [] hcaptured), rfl, ?_⟩
  simp [hpolarity]

/-- Settles O51, instruction by instruction. -/
theorem timerResetExactlyWhen : Obligations.TimerResetExactlyWhen := by
  intro i s t h
  cases i with
  | edge d e => simp [timerReset_mem_edge_iff h, and_comm]
  | poll => simp [timerReset_notMem_poll h]
  | complete => simp [timerReset_mem_complete_iff h]
  | txreq a c => simp [timerReset_notMem_txreq h]
  | txstep => simp [timerReset_mem_txstep_iff h]
  | read v =>
    obtain rfl := execRead_cases h
    simp [timerReset_notMem_of_trace_eq (s := s) (t := s) rfl]
  | reset =>
    obtain rfl := execReset_cases h
    simp [timerReset_mem_newEvents_iff (s := s) (State.emit_trace (resetBlock s) .timerReset)]

/-- Settles O55: each of the three turns is enabled where the loop takes it. -/
theorem foregroundTurnCompletes : Obligations.ForegroundTurnCompletes := by
  intro s request hactive hcarrier
  by_cases hstate : s.rx.rxState = .commandReceived
  · have hcomplete := exec_complete_of_enabled ((frameWaiting_iff s).2 ⟨hactive, hstate⟩)
    simp only [foregroundTurn, if_pos hstate]
    exact ⟨_, execAll_cons [] hcomplete, rfl, by simp [hactive], by simp [hcarrier], fun _ => rfl⟩
  · simp only [foregroundTurn, if_neg hstate]
    cases request with
    | some r =>
      obtain ⟨a, c⟩ := r
      exact ⟨_, execAll_transmission a c s hactive hstate hcarrier, rfl, rfl, rfl, fun h => absurd h hstate⟩
    | none =>
      obtain ⟨t, hpoll⟩ := exec_poll_answers s
      obtain ⟨-, -, htx, -⟩ := execPoll_frame hpoll
      have hfree : foregroundFree s = true := (foregroundFree_iff s).2 ⟨hactive, hstate⟩
      exact ⟨t, execAll_cons [] hpoll, result_of_enabled (i := .poll) nofun hfree hpoll, by rw [htx, hactive],
        by rw [htx, hcarrier], fun h => absurd h hstate⟩

/-- Settles O56: after the idle gap the line is high, in step, and its time is that of the gap. -/
theorem lineModelCountsIntervals : Obligations.LineModelCountsIntervals := by
  intro s idleUs train henabled hpolarity
  have hstep : InStep .high s := by rw [InStep, nextEdgeDir, ← hpolarity, ← henabled]
  obtain ⟨t, since, hexec, hrun⟩ := hstep.runLine_intervals idleUs train
  exact ⟨t, ⟨.high, since⟩, hexec, by rwa [waveformActions, runLine_wait, Nat.zero_add], rfl⟩

/-- Settles O58: the edges of a train end its gap and its intervals, and intervals at one level merge. -/
theorem edgesAreLevelChanges : Obligations.EdgesAreLevelChanges := by
  constructor
  · intro c ct idleUs f
    rw [lineEdges_pulseTrain]
    refine ⟨congrArg _ (List.map_congr_left fun iv _ => ?_), by simp⟩
    cases iv <;> rfl
  · intro c idleUs us us' before after
    refine ⟨?marks, ?spaces, rfl, ?last⟩
    case marks =>
      have hmerge := edgesFrom_merge c (.mark us) (.mark us') (.mark (us + us')) rfl rfl rfl after
      exact lineEdges_append_congr c hmerge idleUs before
    case spaces =>
      have hmerge := edgesFrom_merge c (.space us) (.space us') (.space (us + us')) rfl rfl rfl after
      exact lineEdges_append_congr c hmerge idleUs before
    case last =>
      have hend := lineEdges_append_congr c (edgesFrom_last_space c us) idleUs before
      rwa [List.append_nil] at hend

/-- Settles O44: the count within the timer's range, saturated and wrapped. -/
theorem elapsedCountFits : Obligations.ElapsedCountFits := by
  intro c us
  have hpos : 0 < 2 ^ c.tickBits := Nat.two_pow_pos _
  exact ⟨elapsedCount_lt c us, fun h => elapsedCount_of_lt c (by omega),
    fun h => elapsedCount_of_saturate (by omega), fun h => elapsedCount_of_wrap (by omega)⟩

/-- Settles O54: the training pulse is taken, then a Rising edge overruns the Falling one of the silence. -/
theorem overrunReachesRisingInTraining : Obligations.OverrunReachesRisingInTraining := by
  obtain ⟨t, hexec, hstate, hpending, hdir⟩ : ∃ t,
      execAll [.edge .falling 30000, .poll, .edge .rising 1000, .poll, .edge .falling 600, .edge .rising 600]
        State.reset = .next t ∧
      t.rx.rxState = .trainingReceived ∧ t.mb.mbPending = true ∧ t.mb.mbDir = .rising :=
    ⟨_, rfl, by decide, by decide, by decide⟩
  exact ⟨queued t [], core_run_queued (by decide) hexec, hstate, hpending, hdir⟩

end Sys2Proof.Machine
end

section
/-! The obligation of spec/60_exceptions.md on faults: no branch of an instruction, and none of a step, ends elsewhere
than in a next state (R230). -/

namespace Sys2Proof.Machine

/-- An enabled instruction takes effect, or returns its value, in every case its meaning tells apart (R16, R208). -/
theorem exec_answers_of_enabled {i : Instr} {s : State} (henabled : enabled i s = true) :
    ∃ t, exec i s = .next t := by
  cases i with
  | edge d e =>
    cases hcapture : s.cap.capEnabled with
    | false => exact ⟨_, exec_edge_of_disabled d e hcapture⟩
    | true =>
      by_cases hwatched : d = s.cap.capPolarity
      · exact ⟨_, exec_edge_of_watched e hcapture hwatched⟩
      · exact ⟨_, exec_edge_of_other_polarity e hcapture hwatched⟩
  | poll => exact exec_poll_answers s
  | complete => exact ⟨_, exec_complete_of_enabled henabled⟩
  | txreq a c => exact ⟨_, exec_txreq_of_enabled henabled⟩
  | txstep =>
    rcases Nat.lt_or_ge 98 s.tx.txIndex.toNat with hend | hinterval
    · exact ⟨_, exec_txstep_of_end henabled hend⟩
    · exact ⟨_, exec_txstep_of_interval henabled hinterval⟩
  | read v => exact ⟨_, rfl⟩
  | reset => exact ⟨_, rfl⟩

/-- An instruction that is not enabled answers too, with the result `NotEnabled` (log entry 2). -/
theorem exec_answers (i : Instr) (s : State) : ∃ t, exec i s = .next t := by
  cases henabled : enabled i s with
  | false => exact ⟨_, exec_of_not_enabled henabled⟩
  | true => exact exec_answers_of_enabled henabled

/-- A step idles, refuses its word as a next state, or runs the instruction of its word (R83, R250). -/
theorem step_answers (s : State) : ∃ t, step s = .next t := by
  cases hstimulus : s.stimulus with
  | nil => exact ⟨s, by rw [step, fetchWord_nil s hstimulus, idle]⟩
  | cons w ws =>
    cases hdecode : decode s.cfg.tickBits w with
    | error r => exact ⟨_, stepRefusesIllFormedWord s w ws r hstimulus hdecode⟩
    | ok i =>
      obtain ⟨t, ht⟩ := exec_answers i { s with stimulus := ws }
      exact ⟨t, (stepRunsDecodedInstruction s w ws i hstimulus hdecode).trans ht⟩

/-- Settles O10: the instructions branch by branch, and the step by what it finds on the queue. -/
theorem everyInstructionAnswers : Obligations.EveryInstructionAnswers :=
  ⟨exec_answers, step_answers⟩

end Sys2Proof.Machine
end

section
/-! SUPPORT. The decoder as an equivalence on encoded words, and a line of assembly with two operands, stage by stage:
its tokens, its operands, its mnemonic, its words (spec/30_encoding.md R83, R87). -/

namespace Sys2Proof

/-- A word decodes to an instruction exactly when it is its encoding and the instruction is well formed (R83). -/
theorem decode_eq_ok_iff {n : Nat} {w : Word} {i : Instr} :
    decode n w = .ok i ↔ encode i = w ∧ i.wellFormed n = true := by
  constructor
  · exact fun h => ⟨encode_of_decode h, decode_wellFormed h⟩
  · rintro ⟨rfl, hwf⟩
    exact decode_encode hwf

end Sys2Proof

namespace Sys2Proof.Machine

section Assembler
variable {c : Config} {line name x y : List Char}

theorem assemble_singleton {is : List Instr} (h : assembleLine c line = some is) :
    assemble c [line] = some (is.map encode) := by
  simp [assemble, h]

theorem operandsOf_pair (hx : x ≠ [',']) (hy : y ≠ [',']) : operandsOf [x, [','], y] = some [x, y] := by
  simp [operandsOf, hx, hy]

/-- A line of a mnemonic and two operands means what `assemblePair` says of them. -/
theorem assembleLine_of_pair (htokens : tokensFrom (stripComment line) [] = [name, x, [','], y])
    (hx : x ≠ [',']) (hy : y ≠ [',']) : assembleLine c line = assemblePair name x y := by
  rw [assembleLine, htokens]
  change (operandsOf [x, [','], y]).bind (assembleParts c name) = _
  rw [operandsOf_pair hx hy]
  rfl

theorem assemblePair_edge {d : Dir} {e : Ticks} (hdir : parseDir x = some d) (hticks : parseTicks y = some e) :
    assemblePair "edge".toList x y = some [.edge d e] := by
  simp [assemblePair, hdir, hticks]

theorem assemblePair_txreq {a : Byte} {m : Command} (haddr : parseByte x = some a)
    (hcmd : parseCommand y = some m) : assemblePair "txreq".toList x y = some [.txreq a m] := by
  simp [assemblePair, haddr, hcmd]

end Assembler

end Sys2Proof.Machine
end

section
/-! The obligations on fixed words and lines of assembly (spec/30_encoding.md R76 to R82, R87), and on the idle step
(spec/60_exceptions.md R250). -/

namespace Sys2Proof.Machine

/-- Settles O4: each word is the encoding of its instruction, whose elapsed count, where it has one, fits 16 bits. -/
theorem specWordsDecode : Obligations.SpecWordsDecode := by
  simp only [Obligations.SpecWordsDecode, decode_eq_ok_iff]
  decide

/-- Settles O5: the tokens of each line, what its operands parse to, and the encoding of the instruction they make. -/
theorem assemblerExamples : Obligations.AssemblerExamples := by
  constructor
  · have hline : assembleLine Config.default "edge rise, 1000".toList = some [.edge .rising 1000] :=
      (assembleLine_of_pair (x := "rise".toList) (y := "1000".toList) (by decide) (by decide) (by decide)).trans
        (assemblePair_edge (by decide) (by decide))
    have hword : encode (.edge .rising 1000) = 0x110003E8 := by decide
    rw [assemble_singleton hline, List.map_singleton, hword]
  · have hline : assembleLine Config.default "txreq 0xAA, 0x0028".toList = some [.txreq 0xAA 0x0028] :=
      (assembleLine_of_pair (x := "0xAA".toList) (y := "0x0028".toList) (by decide) (by decide) (by decide)).trans
        (assemblePair_txreq (by decide) (by decide))
    have hword : encode (.txreq 0xAA 0x0028) = 0x40AA0028 := by decide
    rw [assemble_singleton hline, List.map_singleton, hword]

/-- Settles O9: nothing is fetched from an empty queue, and the step is then `idle`. -/
theorem stepHoldsStateWithoutWord : Obligations.StepHoldsStateWithoutWord := by
  intro s hstimulus
  rw [step, fetchWord_nil s hstimulus, idle]

end Sys2Proof.Machine
end
